-- ==== Sys2Proof/Word.lean ====
section
/-! DEFINITION. The word types of GLYPHCORE: what the spec gives as bits (spec/00_scope.md R7). -/

namespace Sys2Proof

/-- `bits8`: a segment pattern, a command-word field, an info byte (R7). -/
abbrev Byte := BitVec 8

/-- The `STATUS` register (R25). -/
abbrev StatusWord := BitVec 16

/-- A response word (R30), and the value field V of a command word (R60). -/
abbrev Word32 := BitVec 32

/-- A command word (R60). -/
abbrev CommandWord := BitVec 64

end Sys2Proof
end

