-- ==== Sys2Proof/Config.lean ====
section
/-! DEFINITION. The implementation parameters of spec/00_scope.md R6 and the values the spec leaves open.
A parameter with a value in R6 is a plain definition. An OPEN parameter or a draw is an opaque constant: no
proof can see what it is. -/

namespace Sys2Proof

/-- `WIDTH`: 6 for the radio/TCAS variant, 4 for the rudder variant (R6, R41). -/
inductive Width where
  | six
  | four
deriving DecidableEq, Repr

/-- The number of addressable positions. -/
def Width.positions : Width → Nat
  | .six => 6
  | .four => 4

/-- `INIT_OPCODES`: the four controller command codes of the startup sequence, named and ordered as R170 issues
them. The spec states no width for a code, so a code is a natural number (DESIGN CHOICE, log 4). -/
structure InitOpcodes where
  clockSource : Nat
  biasMode : Nat
  systemEnable : Nat
  displayEnable : Nat
deriving DecidableEq, Repr

/-- The sequence in which R170 issues the four codes. -/
def InitOpcodes.inOrder (k : InitOpcodes) : List Nat :=
  [k.clockSource, k.biasMode, k.systemEnable, k.displayEnable]

/-- The parameters of one GLYPHCORE (R6): fixed for the machine, carried in its state, written by nothing. Carrying
them there makes every statement about all states a statement about all admitted parameters (log 1). -/
structure Params where
  width : Width
  /-- `MAX_ADDR - (WIDTH - 1)`: as a natural number it holds the platform premise of R42 (log 3). -/
  maxAddrBeyond : Nat
  initOpcodes : InitOpcodes
  resetClearWrites : Bool
  detachClearWrites : Bool
  /-- `PRIMARY_DOT_ADDR`, in `0..WIDTH-1`; only the facade expansions use it (R68; log 17). -/
  primaryDotAddr : Fin width.positions
deriving DecidableEq, Repr

/-- `MAX_ADDR`: the controller's own range is `0..MAX_ADDR`, and `WIDTH - 1 <= MAX_ADDR` (R42). -/
def Params.maxAddr (p : Params) : Nat := p.width.positions - 1 + p.maxAddrBeyond

namespace Config

/-! ### Values R6 states (the spec's literals, normative here: log 18) -/

/-- `BLANK`: the code every code outside 0..15 is coerced to. -/
def blank : Nat := 11

/-- `DOT_BIT`: the bit reserved as the dot in every position. -/
def dotBit : Nat := 4

/-- `SAT6`: the radio saturation bound. -/
def sat6 : Int := 999999

/-- `SAT4`: the TCAS saturation bound. -/
def sat4 : Int := 9999

/-- `DATA_CODES`: "data", by position 0..5. -/
def dataCodes : List Int := [11, 13, 14, 15, 14, 11]

/-! ### OPEN parameters (R6): no value, no property -/

/-- `GLYPH_ROM`: the byte of each glyph code (R21; log 2). -/
opaque glyphRom : Fin 16 → Byte

/-- What `MAX_ADDR` exceeds `WIDTH - 1` by (R42; log 3). -/
opaque maxAddrBeyond : Nat

/-- Code of the clock source select step (R170; log 4). -/
opaque initClockSource : Nat

/-- Code of the bias mode step (R170; log 4). -/
opaque initBiasMode : Nat

/-- Code of the system enable step (R170; log 4). -/
opaque initSystemEnable : Nat

/-- Code of the display enable step (R170; log 4). -/
opaque initDisplayEnable : Nat

/-- `RESET_CLEAR_WRITES` (R170; log 5). -/
opaque resetClearWrites : Bool

/-- `DETACH_CLEAR_WRITES` (R174; log 5). -/
opaque detachClearWrites : Bool

/-- `PRIMARY_DOT_ADDR`, in `0..WIDTH-1` of the machine at hand, whose WIDTH is 6 (R68; log 17). -/
opaque primaryDotAddr : Fin 6

/-! ### Draws and unspecified values -/

/-- `CTRL_INIT`: what the controller holds at an address before GLYPHCORE first writes it (R32; log 7). -/
opaque ctrlInit : Nat → Byte

/-- What `CTRL[a]` is after a failed write transaction, by the number of that transaction (R143; log 8). -/
opaque ctrlAfterFail : Nat → Byte

/-- `BUF` at power-on, by address (R34; log 9). -/
opaque bufPowerOn : Nat → Byte

/-- `BUF` after a reset that failed before its zeroing step, by the number of transactions so far and by address
(R172; log 9). -/
opaque bufAfterFailedReset : Nat → Nat → Byte

/-! ### The machine the reset state describes -/

/-- The Glyph ROM of the machine at hand. -/
def rom : Vector Byte 16 :=
  #v[glyphRom 0, glyphRom 1, glyphRom 2, glyphRom 3, glyphRom 4, glyphRom 5, glyphRom 6, glyphRom 7,
     glyphRom 8, glyphRom 9, glyphRom 10, glyphRom 11, glyphRom 12, glyphRom 13, glyphRom 14, glyphRom 15]

/-- The parameters of the machine at hand: WIDTH 6 (DESIGN CHOICE, log 1), every OPEN one opaque. -/
def params : Params where
  width := .six
  maxAddrBeyond := maxAddrBeyond
  initOpcodes :=
    { clockSource := initClockSource, biasMode := initBiasMode
      systemEnable := initSystemEnable, displayEnable := initDisplayEnable }
  resetClearWrites := resetClearWrites
  detachClearWrites := detachClearWrites
  primaryDotAddr := primaryDotAddr

end Config

end Sys2Proof
end

