-- ==== Sys2Proof/Machine/Digits.lean ====
section
/-! DEFINITION. The two decompositions of the Value Renderer as pure functions (spec/42_digit_decomposer.md R110, R112,
R114, R116), on mathematical integers, with division truncated toward zero (spec/00_scope.md R8). -/

namespace Sys2Proof.Machine

/-- `sat(v, M)`: clamps from above only (R110). -/
def sat (v m : Int) : Int := if m < v then m else v

/-- The digit walk: `n` steps of `rem`/`quot` by 10 from the least significant position backward, the remaining
quotient unmasked in front. The result is most significant first, with `n + 1` codes (R112, R114). -/
def digitWalk : Nat → Int → List Int
  | 0, u => [u]
  | n + 1, u => digitWalk n (u.tdiv 10) ++ [u.tmod 10]

/-- `digits6(v)`: the codes of addresses 0..5 (R112). -/
def digits6 (v : Int) : List Int :=
  if v = 0 then Config.dataCodes else digitWalk 5 (sat v Config.sat6)

/-- `digits4(v)`: the codes of addresses 1..4 (R114). -/
def digits4 (v : Int) : List Int := digitWalk 3 (sat v Config.sat4)

end Sys2Proof.Machine
end

