-- ==== Sys2Proof/Syntax.lean ====
section
/-! DEFINITION. The commands of GLYPHCORE: one constructor per row of spec/opcode_table.json (spec/30_encoding.md
R62, R63). -/

namespace Sys2Proof

/-- A command with its used fields. Every field has exactly the width of the command word's field (R60), so every
term is encodable and no operand value is shut out: an address past the display, a glyph code past 15 or a bit index
past 7 is a legal encoding, and what it does is the command's meaning. -/
inductive Instr where
  /-- `lookup c`: the pattern of a glyph code (R81). -/
  | lookup (code : Byte)
  /-- `read a`: the Digit Buffer's pattern at an address (R91). -/
  | read (addr : Byte)
  /-- `wpat a, p`: a raw pattern to one address (R92). -/
  | wpat (addr pattern : Byte)
  /-- `setdig a, c`: a glyph to one address (R93). -/
  | setdig (addr code : Byte)
  /-- `clra a`: pattern 0 to one address (R94). -/
  | clra (addr : Byte)
  /-- `clrall`: pattern 0 to every address (R95). -/
  | clrall
  /-- `setbit a, b, e`: one bit of one address's pattern (R131). -/
  | setbit (addr bitIndex : Byte) (enable : Bool)
  /-- `setind e`: the dot bit at every address (R132). -/
  | setind (enable : Bool)
  /-- `rend6 v`: a value on the six radio positions (R113). -/
  | rend6 (value : Word32)
  /-- `rend4 v`: a value on the four TCAS positions (R115). -/
  | rend4 (value : Word32)
deriving DecidableEq, Repr

end Sys2Proof
end

