-- ==== Sys2Proof/Decode.lean ====
section
/-! DEFINITION. Decoding and encoding of command words, from the fields of spec/30_encoding.md R60, their use by
opcode R62 and the decoding order R64. The match and mask table of R63 is not used here (it stands in WellFormed):
that the two descriptions agree is a statement. -/

namespace Sys2Proof

/-! ### The fields (R60, R61) -/

/-- OP, `w[63:56]`. -/
def fieldOp (w : CommandWord) : Byte := w.extractLsb' 56 8

/-- A, `w[55:48]`. -/
def fieldA (w : CommandWord) : Byte := w.extractLsb' 48 8

/-- B, `w[47:40]`. -/
def fieldB (w : CommandWord) : Byte := w.extractLsb' 40 8

/-- E, `w[39]`. -/
def fieldE (w : CommandWord) : BitVec 1 := w.extractLsb' 39 1

/-- Z, `w[38:32]`, must be zero in every command. -/
def fieldZ (w : CommandWord) : BitVec 7 := w.extractLsb' 32 7

/-- V, `w[31:0]`. -/
def fieldV (w : CommandWord) : Word32 := w.extractLsb' 0 32

/-- The word OP:A:B:E:Z:V (R66). -/
def commandWord (op a b : Byte) (e : BitVec 1) (z : BitVec 7) (v : Word32) : CommandWord :=
  op ++ (a ++ (b ++ (e ++ (z ++ v))))

/-! ### Opcodes (R63) -/

/-- The opcode of a command. -/
def Instr.opcode : Instr → Byte
  | .lookup _ => 0x01
  | .read _ => 0x02
  | .wpat _ _ => 0x03
  | .setdig _ _ => 0x04
  | .clra _ => 0x05
  | .clrall => 0x06
  | .setbit _ _ _ => 0x07
  | .setind _ => 0x08
  | .rend6 _ => 0x09
  | .rend4 _ => 0x0A

/-- Why a word is no command; both raise F_ILLEGAL (R64). -/
inductive DecodeError where
  /-- The opcode is 0x00 or one of 0x0B..0xFF (R64 step 1, R65). -/
  | reservedOpcode
  /-- A must-be-zero bit of a legal opcode is set (R64 step 2, R62). -/
  | illegalForm
deriving DecidableEq, Repr

/-- `i`, where the fields `i` does not use are zero (R62). -/
def whenZero (mbz : Bool) (i : Instr) : Except DecodeError Instr :=
  if mbz then .ok i else .error .illegalForm

/-- The decoder: total on every 64-bit word (R64). -/
def decode (w : CommandWord) : Except DecodeError Instr :=
  let a := fieldA w
  let b := fieldB w
  let e := fieldE w
  let v := fieldV w
  let a0 := a == 0
  let b0 := b == 0
  let e0 := e == 0
  let z0 := fieldZ w == 0
  let v0 := v == 0
  match (fieldOp w).toNat with
  | 0x01 => whenZero (a0 && e0 && z0 && v0) (.lookup b)
  | 0x02 => whenZero (b0 && e0 && z0 && v0) (.read a)
  | 0x03 => whenZero (e0 && z0 && v0) (.wpat a b)
  | 0x04 => whenZero (e0 && z0 && v0) (.setdig a b)
  | 0x05 => whenZero (b0 && e0 && z0 && v0) (.clra a)
  | 0x06 => whenZero (a0 && b0 && e0 && z0 && v0) .clrall
  | 0x07 => whenZero (z0 && v0) (.setbit a b (e == 1))
  | 0x08 => whenZero (a0 && b0 && z0 && v0) (.setind (e == 1))
  | 0x09 => whenZero (a0 && b0 && e0 && z0) (.rend6 v)
  | 0x0A => whenZero (a0 && b0 && e0 && z0) (.rend4 v)
  | _ => .error .reservedOpcode

/-- The command word of a command: unused fields and Z are zero (R62, R66). -/
def encode (i : Instr) : CommandWord :=
  match i with
  | .lookup c => commandWord i.opcode 0 c 0 0 0
  | .read a => commandWord i.opcode a 0 0 0 0
  | .wpat a p => commandWord i.opcode a p 0 0 0
  | .setdig a c => commandWord i.opcode a c 0 0 0
  | .clra a => commandWord i.opcode a 0 0 0 0
  | .clrall => commandWord i.opcode 0 0 0 0 0
  | .setbit a b e => commandWord i.opcode a b (BitVec.ofBool e) 0 0
  | .setind e => commandWord i.opcode 0 0 (BitVec.ofBool e) 0 0
  | .rend6 v => commandWord i.opcode 0 0 0 0 v
  | .rend4 v => commandWord i.opcode 0 0 0 0 v

/-- The command word whose low `nbits` bits are those of `w` and whose other bits are zero. -/
def wordOfTable (nbits w : Nat) : CommandWord := BitVec.ofNat 64 (w % 2 ^ nbits)

/-- What the decoder reads from a word numbered as spec/opcode_table.json numbers it: a command is one 64-bit word,
bit 0 its least significant bit. -/
def decodeTableWord (nbits w : Nat) : Option Instr :=
  match decode (wordOfTable nbits w) with
  | .ok i => some i
  | .error _ => none

end Sys2Proof
end

