-- ==== Sys2Proof/Machine/State.lean ====
section
/-! DEFINITION. The state of GLYPHCORE as plain data (spec/10_state.md R20 to R34), the reasons a step could stop, the
power-on state and the state right after reset. -/

namespace Sys2Proof.Machine

/-- The controller's answer to a transaction (R31). -/
inductive Ack where
  | ok
  | fail
deriving DecidableEq, Repr

/-- A transaction on the controller port (R31). -/
inductive Tx where
  /-- `Wr(a, p)`. -/
  | wr (addr : Nat) (pattern : Byte)
  /-- `Cmd(op)`. -/
  | cmd (op : Nat)
deriving DecidableEq, Repr

/-- The cause of a latched fault (spec/60_exceptions.md R140). -/
inductive Cause where
  | none
  | inactive
  | illegal
  | addr
  | bitIdx
  | transport
deriving DecidableEq, Repr

/-- The `STATUS` register by fields (R25); `Status.word` is the 16-bit register. The reserved bits 7:5 are hardwired
and not stored. -/
structure Status where
  active : Bool
  faulted : Bool
  fcause : Cause
  finfo : Byte
deriving DecidableEq, Repr

/-- What the host presents, one at a time and between commands only (R27, R29, R175). -/
inductive Input where
  /-- A command word on the command port. -/
  | command (w : CommandWord)
  /-- The reset (attach) input. -/
  | reset
  /-- The detach input. -/
  | detach
deriving DecidableEq, Repr

/-- Controller memory as far as GLYPHCORE's writes determine it (R32): address and byte pairs, addresses strictly
rising. An unlisted address reads as no value (it holds the draw `CTRL_INIT`), so no entry can equal it. -/
abbrev Memory := List Host.Cell

/-- The machine. The first four fields are GLYPHCORE's own (R20) with the parameters R6 gives it; `ctrl` and `txlog`
are what R20 has a model carry beside it; the rest are its ports (R29). -/
structure State where
  /-- The parameters of this machine (R6). -/
  par : Params
  /-- The Glyph ROM (R21). -/
  rom : Vector Byte 16
  /-- The Digit Buffer, entry `a` at position `a`; its length is WIDTH (R22). -/
  buf : List Byte
  /-- The status register (R25). -/
  status : Status
  /-- The controller memory view (R32). -/
  ctrl : Memory
  /-- Every controller transaction since power-on, oldest first (R33). -/
  txlog : List Tx
  /-- The `ack` draws (R31): the numbers, counted from power-on, of the transactions the controller answers `fail`.
  The model's own field for an input of the machine (log 6). -/
  ackFails : List Nat
  /-- What the host presents next, oldest first (R27, R29; log 10). -/
  pending : List Input
  /-- The index of the next command (R27). -/
  index : Nat
  /-- The response words put out so far, oldest first (R30; log 11). -/
  responses : List Word32
deriving DecidableEq, Repr

/-- `WIDTH` of this machine. -/
def State.width (s : State) : Nat := s.par.width.positions

/-- Why the machine would stop with a fault. It has no constructor: every fault of the spec is latched in STATUS and
the machine goes on (R142), so it is a next state and no step stops. -/
inductive Fault : Type
deriving DecidableEq, Repr

/-- Why a step has no meaning. -/
inductive Refusal where
  /-- Raised by `exec` for an instruction without a meaning; safe, since nothing is claimed of it. Every instruction
  has its meaning, so no arm raises it. -/
  | notModelled (mnemonic : String)
deriving DecidableEq, Repr

/-- The machine at power-on, before its first reset (R34), with the parameters and the ROM it has. -/
def State.powerOnOf (p : Params) (rom : Vector Byte 16) : State where
  par := p
  rom := rom
  buf := (List.range p.width.positions).map Config.bufPowerOn
  status := { active := false, faulted := false, fcause := .none, finfo := 0 }
  ctrl := []
  txlog := []
  ackFails := []
  pending := []
  index := 0
  responses := []

/-- The machine right after its first reset has completed without a fault (R34, R170), with the parameters and the ROM
it has. -/
def State.resetOf (p : Params) (rom : Vector Byte 16) : State where
  par := p
  rom := rom
  buf := List.replicate p.width.positions 0
  status := { active := true, faulted := false, fcause := .none, finfo := 0 }
  ctrl := if p.resetClearWrites then (List.range p.width.positions).map (fun a => (a, 0)) else []
  txlog := p.initOpcodes.inOrder.map Tx.cmd
    ++ if p.resetClearWrites then (List.range p.width.positions).map (fun a => Tx.wr a 0) else []
  ackFails := []
  pending := []
  index := 0
  responses := []

/-- Power-on of the machine at hand. -/
def State.powerOn : State := State.powerOnOf Config.params Config.rom

/-- The machine right after reset, as the spec says (R34): the machine at hand, whose OPEN parameters are opaque. -/
def State.reset : State := State.resetOf Config.params Config.rom

end Sys2Proof.Machine
end

