-- ==== Sys2Proof/Machine/Flags.lean ====
section
/-! DEFINITION. The flags of the machine: the STATUS register as a word (spec/10_state.md R25) and the response word
that carries a copy of it (R30). There are no arithmetic flags or condition codes: saturation and coercion are silent
and no state records them (R28). -/

namespace Sys2Proof.Machine

/-- The FCAUSE code of a cause (spec/60_exceptions.md R140); 6 and 7 are never latched. -/
def Cause.code : Cause → BitVec 3
  | .none => 0
  | .inactive => 1
  | .illegal => 2
  | .addr => 3
  | .bitIdx => 4
  | .transport => 5

/-- `STATUS`: FINFO 15:8, reserved 7:5, FCAUSE 4:2, FAULTED 1, ACTIVE 0 (R25). -/
def Status.word (st : Status) : StatusWord :=
  st.finfo ++ ((0 : BitVec 3) ++ (st.fcause.code ++ (BitVec.ofBool st.faulted ++ BitVec.ofBool st.active)))

/-- KIND of a response (R30). -/
inductive Kind where
  | ok
  | data
  | fault
  | refused
deriving DecidableEq, Repr

/-- The code of KIND (R30). -/
def Kind.code : Kind → BitVec 2
  | .ok => 0
  | .data => 1
  | .fault => 2
  | .refused => 3

/-- A response word: KIND 31:30, reserved 29:24, DATA 23:16, STATUS 15:0 (R30). -/
def responseWord (kind : Kind) (data : Byte) (st : Status) : Word32 :=
  kind.code ++ ((0 : BitVec 6) ++ (data ++ st.word))

end Sys2Proof.Machine
end

