-- ==== Sys2Proof/Machine/Ops.lean ====
section
/-! DEFINITION. The named operations over the state: controller memory, Digit Buffer, responses, taking a fault,
controller transactions, the single-address write path and the checks every command passes. -/

namespace Sys2Proof.Machine

/-! ### Controller memory (R32) -/

/-- The canonical form: addresses strictly rising. -/
abbrev Memory.wf (m : Memory) : Prop := m.Pairwise (fun x y => x.1 < y.1)

/-- What the writes so far determine address `a` to hold; `none` where none has reached it (R32; log 7). -/
def Memory.read? : Memory → Nat → Option Byte
  | [], _ => none
  | (b, q) :: m, a => if a = b then some q else Memory.read? m a

/-- `CTRL[a] <- p`, keeping the canonical form. -/
def Memory.write : Memory → Nat → Byte → Memory
  | [], a, p => [(a, p)]
  | (b, q) :: m, a, p =>
    if a < b then (a, p) :: (b, q) :: m
    else if a = b then (a, p) :: m
    else (b, q) :: Memory.write m a p

/-- `CTRL[a]`: the byte last written there, or the draw `CTRL_INIT[a]` (R32). -/
def State.ctrlByte (s : State) (a : Nat) : Byte :=
  match Memory.read? s.ctrl a with
  | some p => p
  | none => Config.ctrlInit a

/-! ### Digit Buffer (R22) -/

/-- `BUF[a]`. The spec reads only `a < WIDTH`; past the end of the list the value is 0, which no command reads in a
state whose buffer has length WIDTH (log 16). -/
def State.bufAt (s : State) (a : Nat) : Byte := s.buf.getD a 0

/-- `BUF[a] <- p`. -/
def State.setBuf (s : State) (a : Nat) (p : Byte) : State := { s with buf := s.buf.set a p }

/-- `for a in 0..WIDTH-1: BUF[a] <- 0x00`. -/
def State.zeroBuf (s : State) : State := { s with buf := List.replicate s.width 0 }

/-! ### Responses (R30) -/

/-- `respond`: the word goes out on the response port, with a copy of STATUS. -/
def State.respond (s : State) (kind : Kind) (data : Byte) : State :=
  { s with responses := s.responses ++ [responseWord kind data s.status] }

/-! ### Taking a fault (spec/60_exceptions.md R142) -/

/-- The latching: FAULTED, FCAUSE and FINFO; ACTIVE stays as it was. -/
def State.latchFault (s : State) (cause : Cause) (info : Byte) : State :=
  { s with status := { s.status with faulted := true, fcause := cause, finfo := info } }

/-- `raise F_X(info)` of a command: latch the fault and respond FAULT; the command stops here (R142). There is no
return from a fault: only reset leaves the faulted state (R145, `resetInput` in Machine/Lifecycle). -/
def State.raiseFault (s : State) (cause : Cause) (info : Byte) : State :=
  (s.latchFault cause info).respond .fault 0

/-- A `raise` on its way out of a sequence: its cause, its info byte, and the state with the statements already
executed (R10, R143). -/
structure Raised where
  cause : Cause
  info : Byte
  state : State
deriving DecidableEq, Repr

/-! ### Controller transactions (R31) -/

/-- The answer to the next transaction: transactions are numbered by their place in TXLOG (log 6). -/
def State.nextAck (s : State) : Ack := if s.txlog.length ∈ s.ackFails then .fail else .ok

/-- `CtrlWrite(a, p)`. After a failed write `CTRL[a]` is unspecified: a free value (R143; log 8). -/
def ctrlWrite (a : Nat) (p : Byte) (s : State) : Except Raised State :=
  match s.nextAck with
  | .ok => .ok { s with txlog := s.txlog ++ [.wr a p], ctrl := Memory.write s.ctrl a p }
  | .fail =>
    .error
      { cause := .transport
        info := BitVec.ofNat 8 a
        state := { s with
          txlog := s.txlog ++ [.wr a p]
          ctrl := Memory.write s.ctrl a (Config.ctrlAfterFail s.txlog.length) } }

/-- `CtrlCmd(op)`. -/
def ctrlCmd (op : Nat) (s : State) : Except Raised State :=
  match s.nextAck with
  | .ok => .ok { s with txlog := s.txlog ++ [.cmd op] }
  | .fail =>
    .error { cause := .transport, info := 0xFF, state := { s with txlog := s.txlog ++ [.cmd op] } }

/-- `SegWrite(a, p)`: the buffer first, then the controller (spec/41_segment_writer.md R90). -/
def segWrite (a : Nat) (p : Byte) (s : State) : Except Raised State := ctrlWrite a p (s.setBuf a p)

/-- `for x in xs: f x`, ended by the first raise (R10). -/
def forEach {α : Type} (f : α → State → Except Raised State) : List α → State → Except Raised State
  | [], s => .ok s
  | x :: xs, s =>
    match f x s with
    | .ok s' => forEach f xs s'
    | .error r => .error r

/-- The end of a writing command: `respond(OK)`, or the raise that ended it. -/
def finish : Except Raised State → State
  | .ok s => s.respond .ok 0
  | .error r => r.state.raiseFault r.cause r.info

/-! ### The checks every command passes (spec/60_exceptions.md R141, R144) -/

/-- Refused if a fault is latched, then F_INACTIVE, then `body` (which is F_ILLEGAL for a word that is no command). -/
def commandChecks (op : Byte) (body : State → State) (s : State) : State :=
  if s.status.faulted then s.respond .refused 0
  else if !s.status.active && op != 0x01 then s.raiseFault .inactive op
  else body s

/-- A word that is no command: F_ILLEGAL with FINFO = `w[63:56]` (R64, R141). -/
def illegalCommand (w : CommandWord) (s : State) : State :=
  commandChecks (fieldOp w) (fun t => t.raiseFault .illegal (fieldOp w)) s

/-! ### Presenting and taking inputs (R27, R29, R175) -/

/-- The next input and the state with it taken. Every command advances the index by exactly 1 and nothing else
changes it (R27). -/
def State.takeInput (s : State) : Option (Input × State) :=
  match s.pending with
  | [] => none
  | .command w :: rest => some (.command w, { s with pending := rest, index := s.index + 1 })
  | .reset :: rest => some (.reset, { s with pending := rest })
  | .detach :: rest => some (.detach, { s with pending := rest })

/-- The state in which the host presents the command word `w` next. -/
def State.presentCommand (s : State) (w : CommandWord) : State :=
  { s with pending := .command w :: s.pending }

end Sys2Proof.Machine
end

