-- ==== Sys2Proof/Machine/Operands.lean ====
section
/-! DEFINITION. The operand forms of the commands (spec/30_encoding.md R61): an address with its range check, a bit
index with its check, a glyph code with its coercion, a signed value. Every operand is a field of the command word;
there are no register operands (spec/10_state.md R26). -/

namespace Sys2Proof.Machine

/-- An address operand: `if a >= WIDTH: raise F_ADDR(a)`, before any write (R41, R140). -/
def withAddr (a : Byte) (body : State → State) (s : State) : State :=
  if s.width ≤ a.toNat then s.raiseFault .addr a else body s

/-- A bit index operand: `if b >= 8: raise F_BITIDX(b)` (spec/43_indicator_editor.md R131). -/
def withBitIndex (b : Byte) (body : State → State) (s : State) : State :=
  if 8 ≤ b.toNat then s.raiseFault .bitIdx b else body s

/-- A renderer on a display narrower than `n` positions raises F_ADDR of the last address it needs, before any write
(spec/42_digit_decomposer.md R113, R115). -/
def withPositions (n : Nat) (body : State → State) (s : State) : State :=
  if s.width < n then s.raiseFault .addr (BitVec.ofNat 8 (n - 1)) else body s

/-- `Glyph(c)` for any integer c: the ROM's entry, or blank's outside 0..15 (spec/40_glyph_rom.md R80). -/
def State.glyph (s : State) (c : Int) : Byte :=
  if h : 0 ≤ c ∧ c ≤ 15 then s.rom[c.toNat]'(by omega) else s.rom[Config.blank]'(by decide)

/-- A glyph code operand: field B, zero-extended (R61). -/
def codeOperand (c : Byte) : Int := c.toNat

/-- A value operand: `sint32` of field V (R7, R61). -/
def valueOperand (v : Word32) : Int := v.toInt

end Sys2Proof.Machine
end

