-- ==== Sys2Proof/Machine/DigitDecomposer.lean ====
section
/-! DEFINITION. The digit decomposer's commands: REND6 and REND4 (spec/42_digit_decomposer.md R111, R113, R115). -/

namespace Sys2Proof.Machine

/-- `SegWrite(k, Glyph(c))` for an address and its code. -/
def writeCode (kc : Nat × Int) (s : State) : Except Raised State := segWrite kc.1 (s.glyph kc.2) s

/-- The codes paired with consecutive addresses from `first`, most significant at the lowest address (R111). -/
def positionsFrom (first : Nat) (codes : List Int) : List (Nat × Int) :=
  codes.zipIdx.map fun ck => (first + ck.2, ck.1)

/-- The writes of REND6 in their order: ascending for the "data" literal, otherwise last position first (R113). -/
def rend6Writes (v : Int) : List (Nat × Int) :=
  if v = 0 then positionsFrom 0 (digits6 v) else (positionsFrom 0 (digits6 v)).reverse

/-- The writes of REND4 in their order: addresses 4, 3, 2, 1 (R115). -/
def rend4Writes (v : Int) : List (Nat × Int) := (positionsFrom 1 (digits4 v)).reverse

/-- REND6 (R113). -/
def execRend6 (v : Word32) (s : State) : Host.Outcome State Fault Refusal :=
  .next (commandChecks (Instr.rend6 v).opcode
    (withPositions 6 fun t => finish (forEach writeCode (rend6Writes (valueOperand v)) t)) s)

/-- REND4 (R115). -/
def execRend4 (v : Word32) (s : State) : Host.Outcome State Fault Refusal :=
  .next (commandChecks (Instr.rend4 v).opcode
    (withPositions 5 fun t => finish (forEach writeCode (rend4Writes (valueOperand v)) t)) s)

end Sys2Proof.Machine
end

