-- ==== Sys2Proof/Machine/GlyphRom.lean ====
section
/-! DEFINITION. The Glyph ROM's command, LOOKUP (spec/40_glyph_rom.md R81). -/

namespace Sys2Proof.Machine

/-- LOOKUP: `respond(DATA, Glyph(b))`; it writes no state and runs while ACTIVE = 0 (R81). -/
def execLookup (c : Byte) (s : State) : Host.Outcome State Fault Refusal :=
  .next (commandChecks (Instr.lookup c).opcode (fun t => t.respond .data (t.glyph (codeOperand c))) s)

end Sys2Proof.Machine
end

