-- ==== Sys2Proof/Machine/IndicatorEditor.lean ====
section
/-! DEFINITION. The indicator bit editor: SETBIT and SETIND (spec/43_indicator_editor.md R130 to R132). -/

namespace Sys2Proof.Machine

/-- `setBitFn(p, b, e)`: clear bit `b`, OR in the new bit value (R130). -/
def setBitFn (p : Byte) (b : Nat) (e : Bool) : Byte :=
  (p &&& ~~~(1#8 <<< b)) ||| ((BitVec.ofBool e).zeroExtend 8 <<< b)

/-- The read, edit and write back of one address: one atomic unit (R52, R131). -/
def editBit (b : Nat) (e : Bool) (a : Nat) (s : State) : Except Raised State :=
  segWrite a (setBitFn (s.bufAt a) b e) s

/-- SETBIT: F_ADDR is checked before F_BITIDX, both before any write (R131). -/
def execSetbit (a b : Byte) (e : Bool) (s : State) : Host.Outcome State Fault Refusal :=
  .next (commandChecks (Instr.setbit a b e).opcode
    (withAddr a (withBitIndex b fun t => finish (editBit b.toNat e a.toNat t))) s)

/-- SETIND: the dot bit at every address, ascending (R132). -/
def execSetind (e : Bool) (s : State) : Host.Outcome State Fault Refusal :=
  .next (commandChecks (Instr.setind e).opcode
    (fun t => finish (forEach (editBit Config.dotBit e) (List.range t.width) t)) s)

end Sys2Proof.Machine
end

