-- ==== Sys2Proof/Machine/SegmentWriter.lean ====
section
/-! DEFINITION. The segment pattern writer's commands: READ, WPAT, SETDIG, CLRA, CLRALL (spec/41_segment_writer.md R91
to R95). -/

namespace Sys2Proof.Machine

/-- READ: the shadow's pattern; no state written and no transaction (R91). -/
def execRead (a : Byte) (s : State) : Host.Outcome State Fault Refusal :=
  .next (commandChecks (Instr.read a).opcode (withAddr a fun t => t.respond .data (t.bufAt a.toNat)) s)

/-- WPAT: `SegWrite(a, p)` (R92). -/
def execWpat (a p : Byte) (s : State) : Host.Outcome State Fault Refusal :=
  .next (commandChecks (Instr.wpat a p).opcode (withAddr a fun t => finish (segWrite a.toNat p t)) s)

/-- SETDIG: `SegWrite(a, Glyph(c))`; the address is checked before the code is looked up (R93). -/
def execSetdig (a c : Byte) (s : State) : Host.Outcome State Fault Refusal :=
  .next (commandChecks (Instr.setdig a c).opcode
    (withAddr a fun t => finish (segWrite a.toNat (t.glyph (codeOperand c)) t)) s)

/-- CLRA: `SegWrite(a, 0x00)` (R94). -/
def execClra (a : Byte) (s : State) : Host.Outcome State Fault Refusal :=
  .next (commandChecks (Instr.clra a).opcode (withAddr a fun t => finish (segWrite a.toNat 0 t)) s)

/-- CLRALL: `SegWrite(a, 0x00)` at every address, ascending (R95). -/
def execClrall (s : State) : Host.Outcome State Fault Refusal :=
  .next (commandChecks Instr.clrall.opcode
    (fun t => finish (forEach (fun a => segWrite a 0) (List.range t.width) t)) s)

end Sys2Proof.Machine
end

