-- ==== Sys2Proof/Machine/Dispatch.lean ====
section
/-! DEFINITION. The dispatch: one arm per command (spec/30_encoding.md R63). -/

namespace Sys2Proof.Machine

def exec (i : Instr) (s : State) : Host.Outcome State Fault Refusal :=
  match i with
  | .lookup c => Sys2Proof.Machine.execLookup c s
  | .read a => Sys2Proof.Machine.execRead a s
  | .wpat a p => Sys2Proof.Machine.execWpat a p s
  | .setdig a c => Sys2Proof.Machine.execSetdig a c s
  | .clra a => Sys2Proof.Machine.execClra a s
  | .clrall => Sys2Proof.Machine.execClrall s
  | .setbit a b e => Sys2Proof.Machine.execSetbit a b e s
  | .setind e => Sys2Proof.Machine.execSetind e s
  | .rend6 v => Sys2Proof.Machine.execRend6 v s
  | .rend4 v => Sys2Proof.Machine.execRend4 v s

end Sys2Proof.Machine
end

