-- ==== Sys2Proof/Machine/Lifecycle.lean ====
section
/-! DEFINITION. The reset (attach) and detach inputs (spec/70_reset_and_hazards.md R170 to R174). Neither is a command
word, puts out a response, or advances the command index. -/

namespace Sys2Proof.Machine

/-- `for a in 0..WIDTH-1: CtrlWrite(a, 0x00)`, ascending: the controller only. -/
def clearController (s : State) : Except Raised State :=
  forEach (fun a => ctrlWrite a 0) (List.range s.width) s

/-- The state with the fault fields and ACTIVE cleared: how R170 begins. -/
def State.clearStatus (s : State) : State :=
  { s with status := { active := false, faulted := false, fcause := .none, finfo := 0 } }

/-- The state with a Digit Buffer of unspecified contents (R172; log 9). -/
def State.unspecifiedBuf (s : State) : State :=
  { s with buf := (List.range s.width).map (Config.bufAfterFailedReset s.txlog.length) }

/-- The state with ACTIVE set as given. -/
def State.setActive (s : State) (active : Bool) : State := { s with status := { s.status with active := active } }

/-- A raise outside a command: the fault is latched and no response goes out (R172, R174; log 15). -/
def Raised.latched (r : Raised) : State := r.state.latchFault r.cause r.info

/-- Reset, whatever the state before it (R170, R171). A failed command transaction leaves the Digit Buffer
unspecified, a failed write leaves it zero, and ACTIVE stays 0 (R172). -/
def resetInput (s : State) : State :=
  match forEach ctrlCmd s.par.initOpcodes.inOrder s.clearStatus with
  | .error r => r.latched.unspecifiedBuf
  | .ok s1 =>
    match if s.par.resetClearWrites then clearController s1.zeroBuf else .ok s1.zeroBuf with
    | .error r => r.latched
    | .ok s2 => s2.setActive true

/-- Detach (R174): a no-op while inactive; it keeps a latched fault and then writes nothing. -/
def detachInput (s : State) : State :=
  if !s.status.active then s
  else
    let s1 := (s.setActive false).zeroBuf
    if s.par.detachClearWrites && !s.status.faulted then
      match clearController s1 with
      | .error r => r.latched
      | .ok s2 => s2
    else s1

end Sys2Proof.Machine
end

