-- ==== Sys2Proof/Machine/Sequencer.lean ====
section
/-! DEFINITION. What one input does: a command word is decoded and executed, reset and detach run as a whole
(spec/60_exceptions.md R141, spec/70_reset_and_hazards.md R175). -/

namespace Sys2Proof.Machine

/-- `Dispatch(w)` (R141): a word that selects a row executes its command, any other is an illegal command. -/
def runCommand (w : CommandWord) (s : State) : Host.Outcome State Fault Refusal :=
  match decode w with
  | .ok i => exec i s
  | .error _ => .next (illegalCommand w s)

/-- One input, run to completion. -/
def runInput (input : Input) (s : State) : Host.Outcome State Fault Refusal :=
  match input with
  | .command w => runCommand w s
  | .reset => .next (resetInput s)
  | .detach => .next (detachInput s)

/-- One step of the synchronous command unit: the next input runs; with nothing presented nothing happens (log 10). -/
def stepInput (s : State) : Host.Outcome State Fault Refusal :=
  match s.takeInput with
  | none => .next s
  | some (input, s') => runInput input s'

end Sys2Proof.Machine
end

