-- ==== Sys2Proof/Machine/Step.lean ====
section
/-! DEFINITION. The step of the machine, and where the host's next command word is put. -/

namespace Sys2Proof.Machine

/-- One step (spec/00_scope.md R5, R10). -/
def step (s : State) : Host.Outcome State Fault Refusal := stepInput s

/-- `s` with the command word that `w` is, numbered as spec/opcode_table.json numbers it, presented next on the command
port: the very next step runs it (log 10). -/
def State.withFetchWord (s : State) (nbits w : Nat) : State := s.presentCommand (wordOfTable nbits w)

end Sys2Proof.Machine
end

