-- ==== Sys2Proof/Machine/Assembler.lean ====
section
/-! DEFINITION. Assembler syntax and pseudo-instructions (spec/30_encoding.md R66 to R68). They add no command: every
pseudo-instruction stands for a list of commands. -/

namespace Sys2Proof.Machine

/-- The digit of an enable field. -/
def enableText (e : Bool) : String := if e then "1" else "0"

/-- A command as assembler text: the mnemonic in lower case and its used fields in the order A, B, E, V, here in
decimal (R66). -/
def assemblyText : Instr → String
  | .lookup c => "lookup " ++ toString c.toNat
  | .read a => "read " ++ toString a.toNat
  | .wpat a p => "wpat " ++ toString a.toNat ++ ", " ++ toString p.toNat
  | .setdig a c => "setdig " ++ toString a.toNat ++ ", " ++ toString c.toNat
  | .clra a => "clra " ++ toString a.toNat
  | .clrall => "clrall"
  | .setbit a b e => "setbit " ++ toString a.toNat ++ ", " ++ toString b.toNat ++ ", " ++ enableText e
  | .setind e => "setind " ++ enableText e
  | .rend6 v => "rend6 " ++ toString v.toInt
  | .rend4 v => "rend4 " ++ toString v.toInt

/-- The pseudo-instructions (R67, R68). -/
inductive Pseudo where
  /-- `dot a, e`. -/
  | dot (addr : Byte) (enable : Bool)
  /-- `blank a`. -/
  | blank (addr : Byte)
  /-- `setdots e`. -/
  | setdots (enable : Bool)
  /-- `showprimary v`. -/
  | showprimary (value : Word32)
  /-- `showsecondary v`. -/
  | showsecondary (value : Word32)
  /-- `showtest e`. -/
  | showtest (enable : Bool)
deriving DecidableEq, Repr

/-- `PDA`: the parameter `PRIMARY_DOT_ADDR` as an address field (R68). -/
def primaryDot (par : Params) : Byte := BitVec.ofNat 8 par.primaryDotAddr

/-- The commands a pseudo-instruction stands for on a display with these parameters (R67, R68). The facade expansions
assume WIDTH = 6 (log 17). -/
def expandPseudo (par : Params) : Pseudo → List Instr
  | .dot a e => [.setbit a 4 e]
  | .blank a => [.setdig a 11]
  | .setdots e => [.setind e]
  | .showprimary v => [.rend6 v, .setbit (primaryDot par) 4 (v != 0)]
  | .showsecondary v => [.rend4 v, .setdig 0 11, .setdig 5 11, .setbit (primaryDot par) 4 false]
  | .showtest true =>
    [.setdig 0 8, .setdig 1 8, .setdig 2 8, .setdig 3 8, .setdig 4 8, .setdig 5 8, .setind true]
  | .showtest false => [.clrall]

/-- A program as the command words the host presents (R27). -/
def assemble (program : List Instr) : List CommandWord := program.map encode

end Sys2Proof.Machine
end

