-- ==== Sys2Proof/Safety.lean ====
section
/-! DEFINITION. The terms in which claims about GLYPHCORE are stated: when a command is accepted, what it writes, what
it leaves alone, how it completes or stops, and the invariants. They are written from the rules, over what can be
observed of a state, and call none of the operations the meanings are built from but the reads of one entry. -/

namespace Sys2Proof.Machine

/-! ### Hypotheses on a state -/

/-- No fault is latched and the driver is attached: a command is neither refused nor answered F_INACTIVE (R141). -/
abbrev State.Ready (s : State) : Prop := s.status.faulted = false ∧ s.status.active = true

/-- The controller answers `ok` to the next `n` transactions (R31). -/
abbrev State.AcksOk (s : State) (n : Nat) : Prop := ∀ k, k < n → s.txlog.length + k ∉ s.ackFails

/-- The controller answers `ok` to `n` transactions and then `fail` (R31). -/
abbrev State.FailsAfter (s : State) (n : Nat) : Prop := s.AcksOk n ∧ s.txlog.length + n ∈ s.ackFails

/-- The Digit Buffer has WIDTH entries (R22). Part of `State.Inv`. -/
abbrev State.BufSized (s : State) : Prop := s.buf.length = s.width

/-- The operands of the command pass its own checks: no F_ADDR and no F_BITIDX (R141). -/
def accepted (i : Instr) (s : State) : Prop :=
  match i with
  | .lookup _ => True
  | .read a => a.toNat < s.width
  | .wpat a _ => a.toNat < s.width
  | .setdig a _ => a.toNat < s.width
  | .clra a => a.toNat < s.width
  | .clrall => True
  | .setbit a b _ => a.toNat < s.width ∧ b.toNat < 8
  | .setind _ => True
  | .rend6 _ => 6 ≤ s.width
  | .rend4 _ => 5 ≤ s.width

/-- The `SegWrite` calls of an accepted command, address and pattern, in their order (R81, R91 to R95, R113, R115,
R131, R132). -/
def commandWrites (i : Instr) (s : State) : List (Nat × Byte) :=
  match i with
  | .lookup _ => []
  | .read _ => []
  | .wpat a p => [(a.toNat, p)]
  | .setdig a c => [(a.toNat, s.glyph c.toNat)]
  | .clra a => [(a.toNat, 0)]
  | .clrall => (List.range s.width).map fun a => (a, 0)
  | .setbit a b e => [(a.toNat, setBitFn (s.bufAt a.toNat) b.toNat e)]
  | .setind e => (List.range s.width).map fun a => (a, setBitFn (s.bufAt a) 4 e)
  | .rend6 v =>
    (if v = 0 then [0, 1, 2, 3, 4, 5] else [5, 4, 3, 2, 1, 0]).map fun k =>
      (k, s.glyph ((digits6 v.toInt).getD k 0))
  | .rend4 v => [4, 3, 2, 1].map fun k => (k, s.glyph ((digits4 v.toInt).getD (k - 1) 0))

/-! ### What a command leaves alone, and how it ends -/

/-- What no command touches: parameters, ROM, the input ports and the command index (the step advances that). -/
def Untouched (s t : State) : Prop :=
  t.par = s.par ∧ t.rom = s.rom ∧ t.ackFails = s.ackFails ∧ t.pending = s.pending ∧ t.index = s.index

/-- From `s` to `t` exactly the writes `ws` were made, in that order: each is one transaction, each written address
holds its pattern in the Digit Buffer and in the controller, every other address reads as before in both. -/
def Wrote (s t : State) (ws : List (Nat × Byte)) : Prop :=
  t.txlog = s.txlog ++ ws.map (fun w => Tx.wr w.1 w.2) ∧
  (∀ w ∈ ws, t.bufAt w.1 = w.2 ∧ Memory.read? t.ctrl w.1 = some w.2) ∧
  (∀ a, a ∉ ws.map Prod.fst → t.bufAt a = s.bufAt a ∧ Memory.read? t.ctrl a = Memory.read? s.ctrl a) ∧
  t.buf.length = s.buf.length

/-- The command completed with `respond(OK)` after exactly the writes `ws`; nothing else changed. -/
def CompletedOk (s t : State) (ws : List (Nat × Byte)) : Prop :=
  Wrote s t ws ∧ Untouched s t ∧ t.status = s.status ∧
  t.responses = s.responses ++ [responseWord .ok 0 s.status]

/-- STATUS with a fault latched: ACTIVE as it was (R142). -/
def Status.latched (st : Status) (cause : Cause) (info : Byte) : Status :=
  { active := st.active, faulted := true, fcause := cause, finfo := info }

/-- The state after a precise fault of a command: STATUS latched, one FAULT response, all else as before (R142, R143). -/
def afterFault (s : State) (cause : Cause) (info : Byte) : State :=
  { s with
    status := s.status.latched cause info
    responses := s.responses ++ [responseWord .fault 0 (s.status.latched cause info)] }

/-- The command stopped on a transport failure of write `k` of `ws`, to address `a` (R143): writes before it keep their
effects, write `k` is in the buffer and in TXLOG and says nothing of `CTRL[a]`, the rest is not executed. -/
def StoppedAt (s t : State) (ws : List (Nat × Byte)) (k a : Nat) : Prop :=
  t.txlog = s.txlog ++ (ws.take (k + 1)).map (fun w => Tx.wr w.1 w.2) ∧
  (∀ w ∈ ws.take (k + 1), t.bufAt w.1 = w.2) ∧
  (∀ w ∈ ws.take k, Memory.read? t.ctrl w.1 = some w.2) ∧
  (∀ b, b ∉ (ws.take (k + 1)).map Prod.fst →
    t.bufAt b = s.bufAt b ∧ Memory.read? t.ctrl b = Memory.read? s.ctrl b) ∧
  t.buf.length = s.buf.length ∧ Untouched s t ∧
  t.status = s.status.latched .transport (BitVec.ofNat 8 a) ∧
  t.responses = s.responses ++ [responseWord .fault 0 (s.status.latched .transport (BitVec.ofNat 8 a))]

/-! ### Invariants -/

/-- The fields of STATUS agree (R25, R140): no cause and info 0 while no fault is latched; while one is, a cause, with
an info byte that cause can have on this display. -/
def State.StatusLegal (s : State) : Prop :=
  (s.status.faulted = false → s.status.fcause = .none ∧ s.status.finfo = 0) ∧
  (s.status.faulted = true → s.status.fcause ≠ .none) ∧
  (s.status.fcause = .inactive → s.status.active = false ∧ s.status.finfo ≠ 0x01) ∧
  (s.status.fcause = .addr → s.width ≤ s.status.finfo.toNat) ∧
  (s.status.fcause = .bitIdx → 8 ≤ s.status.finfo.toNat) ∧
  (s.status.fcause = .transport → s.status.finfo.toNat < s.width ∨ s.status.finfo = 0xFF)

/-- The invariant of every run: the buffer has WIDTH entries (R22); the controller view is canonical and lists exactly
the addresses some logged write went to (R32, R33); the log holds only writes below WIDTH and the startup codes (R31);
STATUS is legal; every command has put out one response (R27, R30). -/
def State.Inv (s : State) : Prop :=
  s.BufSized ∧ Memory.wf s.ctrl ∧
  (∀ a, (Memory.read? s.ctrl a).isSome ↔ ∃ p, Tx.wr a p ∈ s.txlog) ∧
  (∀ a p, Tx.wr a p ∈ s.txlog → a < s.width) ∧
  (∀ op, Tx.cmd op ∈ s.txlog → op ∈ s.par.initOpcodes.inOrder) ∧
  s.StatusLegal ∧ s.responses.length = s.index

/-- The transaction is a write. -/
def Tx.isWr : Tx → Bool
  | .wr _ _ => true
  | .cmd _ => false

/-- Address `a` has been the target of a write since the last reset: one stands in the log after the last command
transaction, which only a reset issues (R23 (b), R170). -/
def writtenSinceReset (log : List Tx) (a : Nat) : Prop :=
  ∃ p, Tx.wr a p ∈ log.reverse.takeWhile Tx.isWr

/-- The shadow invariant (R23), address by address: while attached and with no fault latched, an address written since
the last reset shows in the controller what the Digit Buffer holds. (R23 does not name ACTIVE; log 14.) -/
def State.Shadow (s : State) : Prop :=
  s.Ready → ∀ a, a < s.width → writtenSinceReset s.txlog a → Memory.read? s.ctrl a = some (s.bufAt a)

end Sys2Proof.Machine
end

