-- ==== Sys2Proof/WellFormed.lean ====
section
/-! DEFINITION. Well-formedness of command words: the opcode map of spec/30_encoding.md R63 (spec/opcode_table.json),
by match and mask. A term of `Instr` needs no check of its own: its fields have the exact widths of R60. What can be
ill formed is a command word, and a word is well formed when it selects a row. -/

namespace Sys2Proof

/-- One row of the opcode map: a word `w` selects it when `w &&& mask = pattern` (R63). -/
structure OpcodeRow where
  mnemonic : String
  pattern : CommandWord
  mask : CommandWord
deriving DecidableEq, Repr

/-- The opcode map, in the table's order (R63). -/
def opcodeTable : List OpcodeRow :=
  [ { mnemonic := "LOOKUP", pattern := 0x0100000000000000, mask := 0xFFFF00FFFFFFFFFF }
  , { mnemonic := "READ", pattern := 0x0200000000000000, mask := 0xFF00FFFFFFFFFFFF }
  , { mnemonic := "WPAT", pattern := 0x0300000000000000, mask := 0xFF0000FFFFFFFFFF }
  , { mnemonic := "SETDIG", pattern := 0x0400000000000000, mask := 0xFF0000FFFFFFFFFF }
  , { mnemonic := "CLRA", pattern := 0x0500000000000000, mask := 0xFF00FFFFFFFFFFFF }
  , { mnemonic := "CLRALL", pattern := 0x0600000000000000, mask := 0xFFFFFFFFFFFFFFFF }
  , { mnemonic := "SETBIT", pattern := 0x0700000000000000, mask := 0xFF00007FFFFFFFFF }
  , { mnemonic := "SETIND", pattern := 0x0800000000000000, mask := 0xFFFFFF7FFFFFFFFF }
  , { mnemonic := "REND6", pattern := 0x0900000000000000, mask := 0xFFFFFFFF00000000 }
  , { mnemonic := "REND4", pattern := 0x0A00000000000000, mask := 0xFFFFFFFF00000000 } ]

/-- The word selects the row (R63). -/
def OpcodeRow.selects (r : OpcodeRow) (w : CommandWord) : Bool := w &&& r.mask == r.pattern

/-- The word is a well-formed command word: it selects some row (R63, R64). -/
def wellFormedWord (w : CommandWord) : Bool := opcodeTable.any (·.selects w)

end Sys2Proof
end

