-- ==== Sys2Proof/Certificates/Slice0/Obligations.lean ====
section
/-! DEFINITION. The statements about GLYPHCORE put to the provers. Each docstring names the rule it formalises, or says
that it is the model's own choice and where that is logged. -/

open Sys2Proof Sys2Proof.Machine

/-! ### Encoding and decoding (spec/30_encoding.md) -/

/-- Every command, with every operand at every value, decodes from its own word (R60 to R62, R66). -/
def Obligations.DecodeEncodeRoundTrip : Prop :=
  ∀ i : Instr, decode (encode i) = .ok i

/-- Every word that decodes is the word of the command it decodes to: no bit of a legal word is dropped and each legal
word has one meaning (R60 to R64). -/
def Obligations.EncodeDecodeRoundTrip : Prop :=
  ∀ (w : CommandWord) (i : Instr), decode w = .ok i → encode i = w

/-- The decoder, written from the fields, accepts exactly the words that select a row of the match and mask table, at
most one row selects a word, and the row selected is the row of the decoded command's opcode (R62, R63). -/
def Obligations.DecoderAgreesWithOpcodeTable : Prop :=
  ∀ w : CommandWord,
    ((∃ i, decode w = .ok i) ↔ wellFormedWord w = true) ∧
    (∀ r ∈ opcodeTable, ∀ r' ∈ opcodeTable, r.selects w = true → r'.selects w = true → r = r') ∧
    (∀ i, decode w = .ok i → ∀ r ∈ opcodeTable, r.selects w = true → fieldOp r.pattern = i.opcode)

/-- Words written out from R60 and R63 decode to the commands they stand for, one of every opcode. -/
def Obligations.WrittenOutWordsDecode : Prop :=
  decode 0x0100C80000000000 = .ok (.lookup 200) ∧
  decode 0x0205000000000000 = .ok (.read 5) ∧
  decode 0x0302A50000000000 = .ok (.wpat 2 0xA5) ∧
  decode 0x0403070000000000 = .ok (.setdig 3 7) ∧
  decode 0x0504000000000000 = .ok (.clra 4) ∧
  decode 0x0600000000000000 = .ok .clrall ∧
  decode 0x0702048000000000 = .ok (.setbit 2 4 true) ∧
  decode 0x0800008000000000 = .ok (.setind true) ∧
  decode 0x09000000FFFFFF85 = .ok (.rend6 (BitVec.ofInt 32 (-123))) ∧
  decode 0x0A00000000003039 = .ok (.rend4 12345)

/-- R64: a word presented to an attached, unfaulted machine either selects exactly one row of the table and the step
runs the command it decodes to, or selects none and raises F_ILLEGAL with FINFO = `w[63:56]`. -/
def Obligations.EveryWordSelectsARowOrRaisesIllegal : Prop :=
  ∀ (s : State) (w : CommandWord) (rest : List Input), s.pending = .command w :: rest → s.Ready →
    (∃ r ∈ opcodeTable, ∃ i, r.selects w = true ∧ (∀ r' ∈ opcodeTable, r'.selects w = true → r' = r) ∧
      decode w = .ok i ∧ step s = exec i { s with pending := rest, index := s.index + 1 }) ∨
    ((∀ r ∈ opcodeTable, r.selects w = false) ∧
      step s = .next (afterFault { s with pending := rest, index := s.index + 1 } .illegal (w.extractLsb' 56 8)))

/-! ### The step and the common checks (spec/60_exceptions.md R141, R144, R145) -/

/-- A step runs the decoded command: when the word presented next decodes to `i`, the step is `exec i`, with the word
taken and the command index advanced by 1 (R27, R141). -/
def Obligations.StepRunsDecodedCommand : Prop :=
  ∀ (s : State) (w : CommandWord) (rest : List Input) (i : Instr),
    s.pending = .command w :: rest → decode w = .ok i →
    step s = exec i { s with pending := rest, index := s.index + 1 }

/-- While inactive and unfaulted, every word with an opcode other than LOOKUP's, legal or not, raises F_INACTIVE with
its opcode, and an ill-formed LOOKUP word raises F_ILLEGAL (R141: F_INACTIVE is checked before F_ILLEGAL). -/
def Obligations.InactiveMachineAnswersInactiveBeforeIllegal : Prop :=
  ∀ (s : State) (w : CommandWord) (rest : List Input), s.pending = .command w :: rest →
    s.status.faulted = false → s.status.active = false →
    (fieldOp w ≠ 0x01 →
      step s = .next (afterFault { s with pending := rest, index := s.index + 1 } .inactive (fieldOp w))) ∧
    (fieldOp w = 0x01 → wellFormedWord w = false →
      step s = .next (afterFault { s with pending := rest, index := s.index + 1 } .illegal 0x01))

/-- R144: while a fault is latched every command word is refused: the step only takes the word, advances the index and
puts out REFUSED with DATA 0 and the unchanged STATUS. -/
def Obligations.FaultedMachineRefusesEveryWord : Prop :=
  ∀ (s : State) (w : CommandWord) (rest : List Input), s.pending = .command w :: rest →
    s.status.faulted = true →
    step s = .next { s with
      pending := rest
      index := s.index + 1
      responses := s.responses ++ [responseWord .refused 0 s.status] }

/-- A latched fault, its cause and its info survive every step but one that takes a reset input (R144, R145, R174). -/
def Obligations.OnlyResetLeavesTheFaultedState : Prop :=
  ∀ s t : State, step s = .next t → s.status.faulted = true → (∀ rest, s.pending ≠ .reset :: rest) →
    t.status.faulted = true ∧ t.status.fcause = s.status.fcause ∧ t.status.finfo = s.status.finfo

/-- Every step answers a next state: no command, reset or detach stops the machine (R142, R180); that a step with
nothing presented answers one too is the model's choice (log 10). -/
def Obligations.EveryStepAnswersNext : Prop :=
  ∀ s : State, ∃ t, step s = .next t

/-- With nothing presented a step changes nothing (the model's choice, log 10; R27). -/
def Obligations.NothingPresentedNothingHappens : Prop :=
  ∀ s : State, s.pending = [] → step s = .next s

/-! ### STATUS and responses (spec/10_state.md R25, R30) -/

/-- The fields of STATUS stand at R25's bits and the reserved bits read 0; FCAUSE has the codes of R140. -/
def Obligations.StatusWordLayout : Prop :=
  (∀ st : Status,
    st.word.extractLsb' 0 1 = BitVec.ofBool st.active ∧
    st.word.extractLsb' 1 1 = BitVec.ofBool st.faulted ∧
    st.word.extractLsb' 2 3 = st.fcause.code ∧
    st.word.extractLsb' 5 3 = 0 ∧
    st.word.extractLsb' 8 8 = st.finfo) ∧
  Cause.none.code = 0 ∧ Cause.inactive.code = 1 ∧ Cause.illegal.code = 2 ∧ Cause.addr.code = 3 ∧
  Cause.bitIdx.code = 4 ∧ Cause.transport.code = 5

/-- Every command word advances the index by 1 and is answered by exactly one response: its low half is STATUS after the
command, its reserved bits are 0, its KIND is 3 if a fault was latched before, else 2 if one is latched now, else 1 for
LOOKUP and READ and 0 for the rest, and its DATA is 0 unless KIND is 1 (R27, R30). Reset and detach inputs leave the
index and put out no response (R170, R174); that a failing one puts out none either is the model's reading (log 15). -/
def Obligations.EveryCommandAnswersOnce : Prop :=
  ∀ s t : State, step s = .next t →
    (∀ w rest, s.pending = .command w :: rest →
      t.index = s.index + 1 ∧ t.pending = rest ∧
      ∃ r : Word32, t.responses = s.responses ++ [r] ∧
        r.extractLsb' 0 16 = t.status.word ∧ r.extractLsb' 24 6 = 0 ∧
        r.extractLsb' 30 2 =
          (if s.status.faulted = true then 3
            else if t.status.faulted = true then 2
            else if fieldOp w = 0x01 ∨ fieldOp w = 0x02 then 1
            else 0) ∧
        (r.extractLsb' 30 2 ≠ 1 → r.extractLsb' 16 8 = 0)) ∧
    (∀ rest, s.pending = .reset :: rest ∨ s.pending = .detach :: rest →
      t.index = s.index ∧ t.pending = rest ∧ t.responses = s.responses)

/-! ### LOOKUP and READ -/

/-- `Glyph` on every integer code: the ROM's entry for 0..15, blank's entry for every other, negative ones among them
(spec/40_glyph_rom.md R80). -/
def Obligations.GlyphCoercesEveryCodeOutsideRange : Prop :=
  ∀ s : State, (∀ k : Fin 16, s.glyph (k : Nat) = s.rom[k]) ∧
    (∀ c : Int, c < 0 ∨ 15 < c → s.glyph c = s.rom[11])

/-- R83: LOOKUP answers DATA = `GLYPH_ROM[c]` for c in 0..15 and `GLYPH_ROM[11]` for c in 16..255, attached or not, and
changes nothing but the response port. -/
def Obligations.LookupReturnsTheFixedTableValue : Prop :=
  ∀ (s : State) (c : Byte), s.status.faulted = false →
    exec (.lookup c) s = .next { s with
      responses := s.responses ++
        [responseWord .data (if h : c.toNat ≤ 15 then s.rom[c.toNat] else s.rom[11]) s.status] }

/-- READ answers the Digit Buffer's pattern and changes nothing but the response port: no transaction, no state (R91,
R47). -/
def Obligations.ReadReturnsTheShadowPattern : Prop :=
  ∀ (s : State) (a : Byte) (h : a.toNat < s.buf.length), s.Ready → s.BufSized →
    exec (.read a) s = .next { s with
      responses := s.responses ++ [responseWord .data s.buf[a.toNat] s.status] }

/-! ### The writing commands complete (R92 to R95, R113, R115, R131, R132) -/

/-- WPAT writes its pattern to its address, in the buffer and the controller, and changes nothing else (R90, R92). -/
def Obligations.WpatWritesOnePattern : Prop :=
  ∀ (s : State) (a p : Byte), s.Ready → s.BufSized → a.toNat < s.width → s.AcksOk 1 →
    ∃ t, exec (.wpat a p) s = .next t ∧ CompletedOk s t [(a.toNat, p)]

/-- SETDIG writes the whole byte of its glyph, codes past 15 showing blank's, and changes nothing else (R93, R176). -/
def Obligations.SetdigWritesOneGlyph : Prop :=
  ∀ (s : State) (a c : Byte), s.Ready → s.BufSized → a.toNat < s.width → s.AcksOk 1 →
    ∃ t, exec (.setdig a c) s = .next t ∧
      CompletedOk s t [(a.toNat, if h : c.toNat ≤ 15 then s.rom[c.toNat] else s.rom[11])]

/-- CLRA writes pattern 0 to its address and changes nothing else (R94). -/
def Obligations.ClraWritesZero : Prop :=
  ∀ (s : State) (a : Byte), s.Ready → s.BufSized → a.toNat < s.width → s.AcksOk 1 →
    ∃ t, exec (.clra a) s = .next t ∧ CompletedOk s t [(a.toNat, 0)]

/-- CLRALL writes pattern 0 to every address in ascending order, one transaction each, and changes nothing else
(R95). -/
def Obligations.ClrallClearsEveryAddressAscending : Prop :=
  ∀ s : State, s.Ready → s.BufSized → s.AcksOk s.width →
    ∃ t, exec .clrall s = .next t ∧ CompletedOk s t ((List.range s.width).map fun a => (a, 0)) ∧
      t.buf = List.replicate s.width 0

/-- SETBIT writes the pattern with exactly bit `b` set to `e` and every other bit as the buffer had it, always with
one transaction, and changes nothing else (R131, R133 (a)). -/
def Obligations.SetbitEditsOneBit : Prop :=
  ∀ (s : State) (a b : Byte) (e : Bool), s.Ready → s.BufSized → a.toNat < s.width → b.toNat < 8 → s.AcksOk 1 →
    ∃ (t : State) (q : Byte), exec (.setbit a b e) s = .next t ∧ CompletedOk s t [(a.toNat, q)] ∧
      (∀ i, i < 8 → q.getLsbD i = if i = b.toNat then e else (s.bufAt a.toNat).getLsbD i)

/-- SETIND sets bit 4 of every address to `e`, every other bit as the buffer had it, in ascending order with one
transaction each, and changes nothing else (R132). -/
def Obligations.SetindEditsEveryDotAscending : Prop :=
  ∀ (s : State) (e : Bool), s.Ready → s.BufSized → s.AcksOk s.width →
    ∃ (t : State) (q : Nat → Byte), exec (.setind e) s = .next t ∧
      CompletedOk s t ((List.range s.width).map fun a => (a, q a)) ∧
      (∀ a, a < s.width → ∀ i, i < 8 → (q a).getLsbD i = if i = 4 then e else (s.bufAt a).getLsbD i)

/-- REND6 on a display of six positions writes the glyphs of `digits6(v)`: addresses 0..5 ascending for v = 0, 5 down
to 0 otherwise, for every value, and changes nothing else (R113). -/
def Obligations.Rend6WritesSixGlyphsInOrder : Prop :=
  ∀ (s : State) (v : Word32), s.Ready → s.BufSized → s.par.width = .six → s.AcksOk 6 →
    ∃ (t : State) (c0 c1 c2 c3 c4 c5 : Int), digits6 v.toInt = [c0, c1, c2, c3, c4, c5] ∧
      exec (.rend6 v) s = .next t ∧
      CompletedOk s t
        (if v = 0 then
          [(0, s.glyph c0), (1, s.glyph c1), (2, s.glyph c2), (3, s.glyph c3), (4, s.glyph c4), (5, s.glyph c5)]
        else
          [(5, s.glyph c5), (4, s.glyph c4), (3, s.glyph c3), (2, s.glyph c2), (1, s.glyph c1), (0, s.glyph c0)])

/-- REND4 on a display of six positions writes the glyphs of `digits4(v)` at addresses 4, 3, 2, 1 in that order, for
every value, leaves addresses 0 and 5 and changes nothing else (R115, R177). -/
def Obligations.Rend4WritesFourMiddleGlyphs : Prop :=
  ∀ (s : State) (v : Word32), s.Ready → s.BufSized → s.par.width = .six → s.AcksOk 4 →
    ∃ (t : State) (c1 c2 c3 c4 : Int), digits4 v.toInt = [c1, c2, c3, c4] ∧
      exec (.rend4 v) s = .next t ∧
      CompletedOk s t [(4, s.glyph c4), (3, s.glyph c3), (2, s.glyph c2), (1, s.glyph c1)]

/-! ### The pure functions -/

/-- R130: `setBitFn` is "clear the target bit, OR in the new bit value": every other bit is the pattern's, bit `b` is
`e`. -/
def Obligations.SetBitFnEditsExactlyOneBit : Prop :=
  ∀ (p : Byte) (b : Nat) (e : Bool), b < 8 →
    setBitFn p b e = (p &&& ~~~(BitVec.ofNat 8 (2 ^ b))) ||| (if e then BitVec.ofNat 8 (2 ^ b) else 0) ∧
    ∀ i, i < 8 → (setBitFn p b e).getLsbD i = if i = b then e else p.getLsbD i

/-- R112: `digits6` is "data" for 0; for every other value, with `u` the saturated value, each code but the first is the
truncated decimal digit of `u` at its place and the first is the unmasked quotient after five divisions; for 1..999999
the codes are in 0..9 and reassemble to the value; above, every code is 9. -/
def Obligations.Digits6DecomposesEveryValue : Prop :=
  digits6 0 = [11, 13, 14, 15, 14, 11] ∧
  (∀ v u : Int, v ≠ 0 → u = (if v > 999999 then 999999 else v) →
    ∃ c0 c1 c2 c3 c4 c5 : Int, digits6 v = [c0, c1, c2, c3, c4, c5] ∧
      c5 = u.tmod 10 ∧ c4 = (u.tdiv 10).tmod 10 ∧ c3 = (u.tdiv 100).tmod 10 ∧ c2 = (u.tdiv 1000).tmod 10 ∧
      c1 = (u.tdiv 10000).tmod 10 ∧ c0 = u.tdiv 100000 ∧
      c0 * 100000 + c1 * 10000 + c2 * 1000 + c3 * 100 + c4 * 10 + c5 = u ∧
      (1 ≤ v → ∀ c ∈ [c0, c1, c2, c3, c4, c5], 0 ≤ c ∧ c ≤ 9)) ∧
  (∀ v : Int, 999999 < v → digits6 v = [9, 9, 9, 9, 9, 9])

/-- R114: `digits4`, with `u` the saturated value, gives for each address but the first the truncated decimal digit of
`u` at its place and for the first the unmasked quotient after three divisions, with no zero case; for 0..9999 the codes
are in 0..9 and reassemble to the value; above, every code is 9. -/
def Obligations.Digits4DecomposesEveryValue : Prop :=
  (∀ v u : Int, u = (if v > 9999 then 9999 else v) →
    ∃ c1 c2 c3 c4 : Int, digits4 v = [c1, c2, c3, c4] ∧
      c4 = u.tmod 10 ∧ c3 = (u.tdiv 10).tmod 10 ∧ c2 = (u.tdiv 100).tmod 10 ∧ c1 = u.tdiv 1000 ∧
      c1 * 1000 + c2 * 100 + c3 * 10 + c4 = u ∧
      (0 ≤ v → ∀ c ∈ [c1, c2, c3, c4], 0 ≤ c ∧ c ≤ 9)) ∧
  (∀ v : Int, 9999 < v → digits4 v = [9, 9, 9, 9])

/-- R116: the codes of a negative value are at most 0, the masked ones at least -9, and they reassemble to the value;
a zero code shows glyph 0 and a negative one blank, so the minus glyph is never asked for. -/
def Obligations.NegativeValuesShowBlanksAndZeros : Prop :=
  (∀ v : Int, v < 0 → ∃ c0 c1 c2 c3 c4 c5 : Int, digits6 v = [c0, c1, c2, c3, c4, c5] ∧ c0 ≤ 0 ∧
    (∀ c ∈ [c1, c2, c3, c4, c5], -9 ≤ c ∧ c ≤ 0) ∧
    c0 * 100000 + c1 * 10000 + c2 * 1000 + c3 * 100 + c4 * 10 + c5 = v) ∧
  (∀ v : Int, v < 0 → ∃ c1 c2 c3 c4 : Int, digits4 v = [c1, c2, c3, c4] ∧ c1 ≤ 0 ∧
    (∀ c ∈ [c2, c3, c4], -9 ≤ c ∧ c ≤ 0) ∧ c1 * 1000 + c2 * 100 + c3 * 10 + c4 = v) ∧
  (∀ (s : State) (c : Int), c ≤ 0 → s.glyph c = if c = 0 then s.rom[0] else s.rom[11]) ∧
  digits6 (-123) = [0, 0, 0, -1, -2, -3] ∧
  digits6 (-2147483648) = [-21474, -8, -3, -6, -4, -8]

/-- After REND6 of a value in 1..999999 each address holds the glyph of the value's decimal digit of that place, most
significant at address 0; and where the ROM tells the digits 0..9 apart, two values in that range that leave the same
six patterns are the same value (R117 (a), 90_conflicts.md C8). -/
def Obligations.RadioReadbackDeterminesTheValue : Prop :=
  (∀ (s : State) (v : Word32), s.Ready → s.BufSized → s.par.width = .six → s.AcksOk 6 →
    1 ≤ v.toInt → v.toInt ≤ 999999 →
    ∃ t, exec (.rend6 v) s = .next t ∧
      ∀ k, k < 6 → ∃ d : Fin 16, (d : Nat) = v.toNat / 10 ^ (5 - k) % 10 ∧ t.bufAt k = s.rom[d]) ∧
  (∀ (s t t' : State) (v v' : Word32), s.Ready → s.BufSized → s.par.width = .six → s.AcksOk 6 →
    1 ≤ v.toInt → v.toInt ≤ 999999 → 1 ≤ v'.toInt → v'.toInt ≤ 999999 →
    (∀ i j : Fin 16, (i : Nat) < 10 → (j : Nat) < 10 → s.rom[i] = s.rom[j] → i = j) →
    exec (.rend6 v) s = .next t → exec (.rend6 v') s = .next t' → t.buf = t'.buf → v = v')

/-- REND6 of any value of 999999 or more does exactly what REND6 of 999999 does, and REND4 of any value of 9999 or more
what REND4 of 9999 does, whatever the controller answers (R110, R117 (b), (c)). -/
def Obligations.SaturatedRendersAreIdentical : Prop :=
  (∀ (s : State) (v : Word32), 999999 ≤ v.toInt → exec (.rend6 v) s = exec (.rend6 999999) s) ∧
  (∀ (s : State) (v : Word32), 9999 ≤ v.toInt → exec (.rend4 v) s = exec (.rend4 9999) s)

/-- Turning a dot on and then off leaves the pattern with bit 4 clear, which is the pattern before exactly when its
bit 4 was clear, and two transactions (R133 (b), 90_conflicts.md C3). -/
def Obligations.DotToggleClearsTheDot : Prop :=
  ∀ (s : State) (a : Byte), s.Ready → s.BufSized → a.toNat < s.width → s.AcksOk 2 →
    ∃ t u, exec (.setbit a 4 true) s = .next t ∧ exec (.setbit a 4 false) t = .next u ∧
      u.bufAt a.toNat = s.bufAt a.toNat &&& 0xEF ∧
      (u.bufAt a.toNat = s.bufAt a.toNat ↔ (s.bufAt a.toNat).getLsbD 4 = false) ∧
      u.txlog = s.txlog ++
        [.wr a.toNat (s.bufAt a.toNat ||| 0x10), .wr a.toNat (s.bufAt a.toNat &&& 0xEF)]

/-! ### Faults of the commands (spec/60_exceptions.md R140 to R143) -/

/-- An address field of WIDTH or more raises F_ADDR of that address in each of the five commands that have one, before
any write, and in SETBIT whatever the bit index (R41, R131, R140, R143). -/
def Obligations.AddressPastTheDisplayRaisesAddr : Prop :=
  ∀ (s : State) (a x : Byte) (e : Bool), s.Ready → s.width ≤ a.toNat →
    exec (.read a) s = .next (afterFault s .addr a) ∧
    exec (.wpat a x) s = .next (afterFault s .addr a) ∧
    exec (.setdig a x) s = .next (afterFault s .addr a) ∧
    exec (.clra a) s = .next (afterFault s .addr a) ∧
    exec (.setbit a x e) s = .next (afterFault s .addr a)

/-- A bit index of 8 or more at a legal address raises F_BITIDX of that index before any write (R131, R140). -/
def Obligations.BitIndexPastSevenRaisesBitIdx : Prop :=
  ∀ (s : State) (a b : Byte) (e : Bool), s.Ready → a.toNat < s.width → 8 ≤ b.toNat →
    exec (.setbit a b e) s = .next (afterFault s .bitIdx b)

/-- On the four-position display REND6 raises F_ADDR(5) and REND4 raises F_ADDR(4), for every value, before any write
(R113, R115, R140). -/
def Obligations.RenderersFaultOnTheNarrowDisplay : Prop :=
  ∀ (s : State) (v : Word32), s.Ready → s.par.width = .four →
    exec (.rend6 v) s = .next (afterFault s .addr 5) ∧
    exec (.rend4 v) s = .next (afterFault s .addr 4)

/-- R143 for every command that writes: when the controller answers `ok` to the first `k` of the command's writes and
`fail` to the next, the writes before it keep their effects, the failing one is in the buffer and in TXLOG with nothing
said of the controller there, the rest is not executed, and F_TRANSPORT of its address is latched and answered. -/
def Obligations.TransportFailureIsImpreciseWithinItsCommand : Prop :=
  ∀ (s : State) (i : Instr) (k : Nat) (h : k < (commandWrites i s).length),
    s.Ready → s.BufSized → accepted i s → s.FailsAfter k →
    ∃ t, exec i s = .next t ∧ StoppedAt s t (commandWrites i s) k ((commandWrites i s)[k]).1

/-! ### Reset and detach (spec/70_reset_and_hazards.md) -/

/-- A reset input at power-on, every ack ok, leaves the state R34 gives, which is the model's reset state, for every
admitted parameter and ROM (R34, R170). -/
def Obligations.ResetAtPowerOnGivesTheResetState : Prop :=
  ∀ (p : Params) (rom : Vector Byte 16),
    step { State.powerOnOf p rom with pending := [.reset] } = .next (State.resetOf p rom)

/-- A reset that completes, from any state, faulted or active or not: buffer zero, STATUS active and clear, the four
startup codes and then, if RESET_CLEAR_WRITES, a zero write to every address, in TXLOG and in the controller; nothing
else changes (R34, R170, R171). -/
def Obligations.ResetReinitialisesFromEveryState : Prop :=
  ∀ (s : State) (rest : List Input), s.pending = .reset :: rest →
    s.AcksOk (4 + if s.par.resetClearWrites then s.width else 0) →
    ∃ t, step s = .next t ∧
      t.buf = List.replicate s.width 0 ∧
      t.status = { active := true, faulted := false, fcause := .none, finfo := 0 } ∧
      t.txlog = s.txlog ++
        [.cmd s.par.initOpcodes.clockSource, .cmd s.par.initOpcodes.biasMode,
          .cmd s.par.initOpcodes.systemEnable, .cmd s.par.initOpcodes.displayEnable] ++
        (if s.par.resetClearWrites then (List.range s.width).map (fun a => Tx.wr a 0) else []) ∧
      (∀ a, Memory.read? t.ctrl a =
        if s.par.resetClearWrites = true ∧ a < s.width then some 0 else Memory.read? s.ctrl a) ∧
      t.par = s.par ∧ t.rom = s.rom ∧ t.ackFails = s.ackFails ∧ t.pending = rest ∧ t.index = s.index ∧
      t.responses = s.responses

/-- A transport failure during reset ends it there, latches F_TRANSPORT and leaves ACTIVE 0, without a response: at
startup code `k` FINFO is 0xFF and the controller is untouched; at the zero write of address `k` FINFO is `k`, the
buffer is zero and the addresses below are cleared (R170, R172; that no response goes out is deduced, log 15). -/
def Obligations.TransportFailureEndsTheReset : Prop :=
  ∀ (s : State) (rest : List Input) (k : Nat), s.pending = .reset :: rest →
    (k < 4 → s.FailsAfter k →
      ∃ t, step s = .next t ∧
        t.status = { active := false, faulted := true, fcause := .transport, finfo := 0xFF } ∧
        t.txlog = s.txlog ++ (s.par.initOpcodes.inOrder.take (k + 1)).map Tx.cmd ∧
        t.ctrl = s.ctrl ∧ t.responses = s.responses ∧ t.rom = s.rom ∧ t.par = s.par ∧ t.index = s.index) ∧
    (s.par.resetClearWrites = true → k < s.width → s.FailsAfter (4 + k) →
      ∃ t, step s = .next t ∧
        t.status = { active := false, faulted := true, fcause := .transport, finfo := BitVec.ofNat 8 k } ∧
        t.txlog = s.txlog ++ s.par.initOpcodes.inOrder.map Tx.cmd ++
          (List.range (k + 1)).map (fun a => Tx.wr a 0) ∧
        t.buf = List.replicate s.width 0 ∧
        (∀ a, a ≠ k → Memory.read? t.ctrl a = if a < k then some 0 else Memory.read? s.ctrl a) ∧
        t.responses = s.responses ∧ t.rom = s.rom ∧ t.par = s.par ∧ t.index = s.index)

/-- Detach: a no-op while inactive; otherwise ACTIVE 0 and a zero buffer, a latched fault kept; with
DETACH_CLEAR_WRITES and no fault a zero write to every address, otherwise no transaction; and a failing one of those
writes latches F_TRANSPORT of its address and ends it, without a response (R174; that it ends there and puts out no
response is deduced, log 15). -/
def Obligations.DetachZeroesTheBufferAndKeepsFaults : Prop :=
  ∀ (s : State) (rest : List Input), s.pending = .detach :: rest →
    (s.status.active = false → step s = .next { s with pending := rest }) ∧
    (s.status.active = true → (s.par.detachClearWrites = false ∨ s.status.faulted = true) →
      step s = .next { s with
        pending := rest
        status := { s.status with active := false }
        buf := List.replicate s.width 0 }) ∧
    (s.Ready → s.par.detachClearWrites = true → s.AcksOk s.width →
      ∃ t, step s = .next t ∧ t.buf = List.replicate s.width 0 ∧
        t.status = { s.status with active := false } ∧
        t.txlog = s.txlog ++ (List.range s.width).map (fun a => Tx.wr a 0) ∧
        (∀ a, Memory.read? t.ctrl a = if a < s.width then some 0 else Memory.read? s.ctrl a) ∧
        t.par = s.par ∧ t.rom = s.rom ∧ t.ackFails = s.ackFails ∧ t.pending = rest ∧ t.index = s.index ∧
        t.responses = s.responses) ∧
    (∀ k, s.Ready → s.par.detachClearWrites = true → k < s.width → s.FailsAfter k →
      ∃ t, step s = .next t ∧ t.buf = List.replicate s.width 0 ∧
        t.status = { active := false, faulted := true, fcause := .transport, finfo := BitVec.ofNat 8 k } ∧
        t.txlog = s.txlog ++ (List.range (k + 1)).map (fun a => Tx.wr a 0) ∧
        (∀ a, a ≠ k → Memory.read? t.ctrl a = if a < k then some 0 else Memory.read? s.ctrl a) ∧
        t.responses = s.responses)

/-! ### Invariants and whole-machine rules -/

/-- The invariant and the shadow invariant hold in the reset state and the invariant at power-on, for every admitted
parameter and ROM (R22, R23, R34). -/
def Obligations.ResetStateMeetsTheInvariants : Prop :=
  (∀ (p : Params) (rom : Vector Byte 16),
    (State.resetOf p rom).Inv ∧ (State.resetOf p rom).Shadow ∧ (State.powerOnOf p rom).Inv) ∧
  State.reset.Inv ∧ State.reset.Shadow

/-- Every step keeps the invariant, from every state that meets it, whatever is presented and whatever the controller
answers (R22, R25, R30 to R33, R140). -/
def Obligations.EveryStepKeepsTheInvariant : Prop :=
  ∀ s t : State, s.Inv → step s = .next t → t.Inv

/-- Every step keeps the shadow invariant: while attached with no fault latched, an address written since the last
reset shows in the controller what the Digit Buffer holds (R23, with ACTIVE = 1 named: log 14). -/
def Obligations.EveryStepKeepsTheShadowInvariant : Prop :=
  ∀ s t : State, s.BufSized → s.Shadow → step s = .next t → t.Shadow

/-- R23 needs ACTIVE = 1: a detach of an attached, unfaulted machine with DETACH_CLEAR_WRITES = false latches no fault
and leaves every address written since the last reset showing in the controller what the buffer held, while the buffer is
zero; and in some such step, with every address written since the last reset, the two differ (R174; log 14). -/
def Obligations.DetachCanLeaveTheShadowBehind : Prop :=
  (∀ (s : State) (rest : List Input), s.Ready → s.Shadow → s.pending = .detach :: rest →
    s.par.detachClearWrites = false →
    ∃ t, step s = .next t ∧ t.status.faulted = false ∧ t.status.active = false ∧
      ∀ a, a < s.width → writtenSinceReset s.txlog a →
        writtenSinceReset t.txlog a ∧ t.bufAt a = 0 ∧ Memory.read? t.ctrl a = some (s.bufAt a)) ∧
  (∃ (s t : State) (rest : List Input), s.Inv ∧ s.Shadow ∧ s.Ready ∧ s.pending = .detach :: rest ∧
    s.par.detachClearWrites = false ∧ (∀ a, a < s.width → writtenSinceReset s.txlog a) ∧
    step s = .next t ∧ t.status.faulted = false ∧
    (∀ a, a < t.width → writtenSinceReset t.txlog a) ∧
    ∃ a, a < t.width ∧ Memory.read? t.ctrl a ≠ some (t.bufAt a))

/-- R21: no step changes the Glyph ROM, nor the parameters, nor the ack input. -/
def Obligations.RomAndParametersNeverChange : Prop :=
  ∀ s t : State, step s = .next t → t.rom = s.rom ∧ t.par = s.par ∧ t.ackFails = s.ackFails

/-- TXLOG only grows at its end, by writes below WIDTH and startup codes, at most 4 + WIDTH a step (R31, R33). -/
def Obligations.TransactionLogOnlyGrows : Prop :=
  ∀ s t : State, step s = .next t →
    ∃ added : List Tx, t.txlog = s.txlog ++ added ∧ added.length ≤ 4 + s.width ∧
      (∀ a p, Tx.wr a p ∈ added → a < s.width) ∧ (∀ op, Tx.cmd op ∈ added → op ∈ s.par.initOpcodes.inOrder)

/-- Only `CtrlWrite` changes the controller: an address no transaction of the step wrote reads as before (R32). -/
def Obligations.ControllerChangesOnlyWhereLogged : Prop :=
  ∀ (s t : State) (added : List Tx), step s = .next t → t.txlog = s.txlog ++ added →
    ∀ a, (∀ p, Tx.wr a p ∉ added) → Memory.read? t.ctrl a = Memory.read? s.ctrl a

/-- The controller memory view: a read after a write gives the byte written, other addresses read as before, the
canonical form is kept, and two canonical views that read alike are equal (R32). -/
def Obligations.ControllerViewIsCanonical : Prop :=
  (∀ (m : Memory) (a b : Nat) (p : Byte),
    Memory.read? (Memory.write m a p) b = if b = a then some p else Memory.read? m b) ∧
  (∀ (m : Memory) (a : Nat) (p : Byte), Memory.wf m → Memory.wf (Memory.write m a p)) ∧
  (∀ m m' : Memory, Memory.wf m → Memory.wf m' → (∀ a, Memory.read? m a = Memory.read? m' a) → m = m')

/-! ### The response word and the facade expansions -/

/-- The fields of a response word stand at R30's bits, with R30's codes of KIND. -/
def Obligations.ResponseWordLayout : Prop :=
  (∀ (kind : Kind) (data : Byte) (st : Status),
    (responseWord kind data st).extractLsb' 30 2 = kind.code ∧
    (responseWord kind data st).extractLsb' 24 6 = 0 ∧
    (responseWord kind data st).extractLsb' 16 8 = data ∧
    (responseWord kind data st).extractLsb' 0 16 = st.word) ∧
  Kind.ok.code = 0 ∧ Kind.data.code = 1 ∧ Kind.fault.code = 2 ∧ Kind.refused.code = 3

/-- On a display of six positions every command of a facade expansion has operands in range, the primary dot's address
among them (R6, R68). -/
def Obligations.FacadeExpansionsAreAccepted : Prop :=
  ∀ (s : State) (v : Word32), s.par.width = .six →
    (primaryDot s.par).toNat = s.par.primaryDotAddr ∧
    ∀ p ∈ [Pseudo.showprimary v, .showsecondary v, .showtest true, .showtest false],
      ∀ i ∈ expandPseudo s.par p, accepted i s
end

