-- ==== Sys2Proof/Laws/Decode.lean ====
section
/-! SUPPORT. The fields of a command word built from its fields (spec/30_encoding.md R60). -/

namespace Sys2Proof

section
variable (op a b : Byte) (e : BitVec 1) (z : BitVec 7) (v : Word32)

@[simp] theorem fieldOp_commandWord : fieldOp (commandWord op a b e z v) = op := by
  unfold fieldOp commandWord
  ext i hi
  simp only [BitVec.getElem_extractLsb', BitVec.getLsbD_append]
  rw [if_neg (by omega), Nat.add_sub_cancel_left]
  exact BitVec.getLsbD_eq_getElem hi

@[simp] theorem fieldA_commandWord : fieldA (commandWord op a b e z v) = a := by
  unfold fieldA commandWord
  ext i hi
  simp only [BitVec.getElem_extractLsb', BitVec.getLsbD_append]
  rw [if_pos (by omega), if_neg (by omega), Nat.add_sub_cancel_left]
  exact BitVec.getLsbD_eq_getElem hi

@[simp] theorem fieldB_commandWord : fieldB (commandWord op a b e z v) = b := by
  unfold fieldB commandWord
  ext i hi
  simp only [BitVec.getElem_extractLsb', BitVec.getLsbD_append]
  rw [if_pos (by omega), if_pos (by omega), if_neg (by omega), Nat.add_sub_cancel_left]
  exact BitVec.getLsbD_eq_getElem hi

@[simp] theorem fieldE_commandWord : fieldE (commandWord op a b e z v) = e := by
  unfold fieldE commandWord
  ext i hi
  simp only [BitVec.getElem_extractLsb', BitVec.getLsbD_append]
  rw [if_pos (by omega), if_pos (by omega), if_pos (by omega), if_neg (by omega), Nat.add_sub_cancel_left]
  exact BitVec.getLsbD_eq_getElem hi

@[simp] theorem fieldZ_commandWord : fieldZ (commandWord op a b e z v) = z := by
  unfold fieldZ commandWord
  ext i hi
  simp only [BitVec.getElem_extractLsb', BitVec.getLsbD_append]
  rw [if_pos (by omega), if_pos (by omega), if_pos (by omega), if_pos (by omega), if_neg (by omega),
    Nat.add_sub_cancel_left]
  exact BitVec.getLsbD_eq_getElem hi

@[simp] theorem fieldV_commandWord : fieldV (commandWord op a b e z v) = v := by
  unfold fieldV commandWord
  ext i hi
  simp only [BitVec.getElem_extractLsb', BitVec.getLsbD_append]
  rw [if_pos (by omega), if_pos (by omega), if_pos (by omega), if_pos (by omega), if_pos (by omega), Nat.zero_add]
  exact BitVec.getLsbD_eq_getElem hi

end

/-- A word is its fields. -/
theorem commandWord_fields (w : CommandWord) :
    commandWord (fieldOp w) (fieldA w) (fieldB w) (fieldE w) (fieldZ w) (fieldV w) = w := by
  unfold commandWord fieldOp fieldA fieldB fieldE fieldZ fieldV
  ext i hi
  simp only [BitVec.getElem_append, BitVec.getElem_extractLsb']
  repeat' split
  all_goals first
    | simp [← BitVec.getLsbD_eq_getElem]; done
    | (rw [← BitVec.getLsbD_eq_getElem]; congr 1; omega)

/-- A command keeps the opcode of the word it is decoded from (R64). -/
theorem decode_opcode {w : CommandWord} {i : Instr} (h : decode w = .ok i) : i.opcode = fieldOp w := by
  unfold decode at h
  simp only at h
  split at h <;> first
    | cases h
    | unfold whenZero at h
      split at h
      · injection h with h
        subst h
        apply BitVec.eq_of_toNat_eq
        simp_all [Instr.opcode]
      · cases h

/-- An opcode of the map is one of 1..10. -/
theorem opcode_range (i : Instr) : 1 ≤ i.opcode.toNat ∧ i.opcode.toNat ≤ 10 := by
  cases i <;> simp [Instr.opcode]

end Sys2Proof
end

