-- ==== Sys2Proof/Laws/Digits.lean ====
section
/-! SUPPORT. The shape of the two decompositions: how many codes there are and which address each goes to. -/

namespace Sys2Proof.Machine

theorem digitWalk_length (n : Nat) (u : Int) : (digitWalk n u).length = n + 1 := by
  induction n generalizing u with
  | zero => rfl
  | succ n ih => simp [digitWalk, ih]

theorem digits6_length (v : Int) : (digits6 v).length = 6 := by
  unfold digits6
  split
  · rfl
  · exact digitWalk_length 5 _

theorem digits4_length (v : Int) : (digits4 v).length = 4 := digitWalk_length 3 _

/-- The six codes of a non-zero value: the truncated quotients and remainders of the saturated value. -/
theorem digits6_of_ne {v : Int} (h : v ≠ 0) :
    digits6 v =
      let u := sat v Config.sat6
      [u.tdiv 10 |>.tdiv 10 |>.tdiv 10 |>.tdiv 10 |>.tdiv 10, (u.tdiv 10 |>.tdiv 10 |>.tdiv 10 |>.tdiv 10).tmod 10,
        (u.tdiv 10 |>.tdiv 10 |>.tdiv 10).tmod 10, (u.tdiv 10 |>.tdiv 10).tmod 10, (u.tdiv 10).tmod 10, u.tmod 10] := by
  simp [digits6, h, digitWalk]

/-- The four codes of a value. -/
theorem digits4_eq (v : Int) :
    digits4 v =
      let u := sat v Config.sat4
      [u.tdiv 10 |>.tdiv 10 |>.tdiv 10, (u.tdiv 10 |>.tdiv 10).tmod 10, (u.tdiv 10).tmod 10, u.tmod 10] := by
  simp [digits4, digitWalk]

theorem valueOperand_eq_zero {v : Word32} : valueOperand v = 0 ↔ v = 0 := by
  unfold valueOperand
  rw [← BitVec.toInt_zero (w := 32), BitVec.toInt_inj]
  rfl

/-- The writes of REND6 by address, in their order. -/
theorem rend6Writes_eq (v : Int) :
    rend6Writes v =
      (if v = 0 then [0, 1, 2, 3, 4, 5] else [5, 4, 3, 2, 1, 0]).map fun k => (k, (digits6 v).getD k 0) := by
  have h := digits6_length v
  match hd : digits6 v, h with
  | [c0, c1, c2, c3, c4, c5], _ =>
    unfold rend6Writes
    split <;> simp [positionsFrom, hd]

/-- The writes of REND4 by address, in their order. -/
theorem rend4Writes_eq (v : Int) :
    rend4Writes v = [4, 3, 2, 1].map fun k => (k, (digits4 v).getD (k - 1) 0) := by
  have h := digits4_length v
  match hd : digits4 v, h with
  | [c1, c2, c3, c4], _ => simp [rend4Writes, positionsFrom, hd]

end Sys2Proof.Machine
end

