-- ==== Sys2Proof/Laws/Memory.lean ====
section
/-! SUPPORT. The laws of the controller memory view that other lemmas rest on: a write keeps the canonical form and
what it makes of the addresses listed. -/

namespace Sys2Proof.Machine

@[simp] theorem Memory.read?_nil (a : Nat) : Memory.read? [] a = none := rfl

theorem Memory.read?_cons (b : Nat) (q : Byte) (m : Memory) (a : Nat) :
    Memory.read? ((b, q) :: m) a = if a = b then some q else Memory.read? m a := rfl

/-- An address below every listed one reads as no value. -/
theorem Memory.read?_eq_none_of_lt {m : Memory} {a : Nat} (h : ∀ c ∈ m, a < c.1) : Memory.read? m a = none := by
  induction m with
  | nil => rfl
  | cons c m ih =>
    obtain ⟨b, q⟩ := c
    have hb : a < b := h (b, q) (by simp)
    rw [Memory.read?_cons, if_neg (by omega), ih fun c hc => h c (by simp [hc])]

/-- An entry of a written view is the one written or an entry of the view before. -/
theorem Memory.mem_write {m : Memory} {a : Nat} {p : Byte} {c : Host.Cell} (h : c ∈ Memory.write m a p) :
    c = (a, p) ∨ c ∈ m := by
  induction m with
  | nil => simpa [Memory.write] using h
  | cons d m ih =>
    obtain ⟨b, q⟩ := d
    simp only [Memory.write] at h
    split at h
    · simpa using h
    · split at h
      · rcases List.mem_cons.mp h with h | h
        · exact .inl h
        · exact .inr (List.mem_cons_of_mem _ h)
      · rcases List.mem_cons.mp h with h | h
        · exact .inr (by simp [h])
        · exact (ih h).imp id (List.mem_cons_of_mem _)

/-- The canonical form is kept by a write. -/
theorem Memory.write_wf {m : Memory} (h : Memory.wf m) (a : Nat) (p : Byte) : Memory.wf (Memory.write m a p) := by
  induction m with
  | nil => simp [Memory.write, Memory.wf]
  | cons c m ih =>
    obtain ⟨b, q⟩ := c
    obtain ⟨hlt, hm⟩ := List.pairwise_cons.mp h
    simp only [Memory.write]
    split
    · refine List.pairwise_cons.mpr ⟨fun d hd => ?_, h⟩
      rcases List.mem_cons.mp hd with rfl | hd
      · assumption
      · exact Nat.lt_trans ‹a < b› (hlt d hd)
    · split
      · subst a
        exact List.pairwise_cons.mpr ⟨hlt, hm⟩
      · refine List.pairwise_cons.mpr ⟨fun d hd => ?_, ih hm⟩
        rcases Memory.mem_write hd with rfl | hd
        · show b < a
          omega
        · exact hlt d hd

/-- A read after a write, in any view: the address written reads the byte written, every other as before. -/
theorem Memory.read?_write (m : Memory) (a b : Nat) (p : Byte) :
    Memory.read? (Memory.write m a p) b = if b = a then some p else Memory.read? m b := by
  induction m with
  | nil => rfl
  | cons c m ih =>
    obtain ⟨d, q⟩ := c
    simp only [Memory.write]
    split
    · rfl
    · split
      · subst a
        simp only [Memory.read?_cons]
        split <;> rfl
      · simp only [Memory.read?_cons, ih]
        split
        · rw [if_neg (by omega)]
        · rfl

@[simp] theorem Memory.read?_write_self (m : Memory) (a : Nat) (p : Byte) :
    Memory.read? (Memory.write m a p) a = some p := by
  rw [Memory.read?_write, if_pos rfl]

theorem Memory.read?_write_of_ne {a b : Nat} (h : b ≠ a) (m : Memory) (p : Byte) :
    Memory.read? (Memory.write m a p) b = Memory.read? m b := by
  rw [Memory.read?_write, if_neg h]

end Sys2Proof.Machine
end

