-- ==== Sys2Proof/Laws/State.lean ====
section
/-! SUPPORT. One lemma per field per named update of the state, true by unfolding, so that no later proof unfolds a
record update. -/

namespace Sys2Proof.Machine

/-! ### setBuf -/

@[simp] theorem State.setBuf_par (s : State) (a : Nat) (p : Byte) :
    (s.setBuf a p).par = s.par := rfl
@[simp] theorem State.setBuf_rom (s : State) (a : Nat) (p : Byte) :
    (s.setBuf a p).rom = s.rom := rfl
@[simp] theorem State.setBuf_buf (s : State) (a : Nat) (p : Byte) :
    (s.setBuf a p).buf = s.buf.set a p := rfl
@[simp] theorem State.setBuf_status (s : State) (a : Nat) (p : Byte) :
    (s.setBuf a p).status = s.status := rfl
@[simp] theorem State.setBuf_ctrl (s : State) (a : Nat) (p : Byte) :
    (s.setBuf a p).ctrl = s.ctrl := rfl
@[simp] theorem State.setBuf_txlog (s : State) (a : Nat) (p : Byte) :
    (s.setBuf a p).txlog = s.txlog := rfl
@[simp] theorem State.setBuf_ackFails (s : State) (a : Nat) (p : Byte) :
    (s.setBuf a p).ackFails = s.ackFails := rfl
@[simp] theorem State.setBuf_pending (s : State) (a : Nat) (p : Byte) :
    (s.setBuf a p).pending = s.pending := rfl
@[simp] theorem State.setBuf_index (s : State) (a : Nat) (p : Byte) :
    (s.setBuf a p).index = s.index := rfl
@[simp] theorem State.setBuf_responses (s : State) (a : Nat) (p : Byte) :
    (s.setBuf a p).responses = s.responses := rfl
@[simp] theorem State.setBuf_width (s : State) (a : Nat) (p : Byte) :
    (s.setBuf a p).width = s.width := rfl

/-! ### zeroBuf -/

@[simp] theorem State.zeroBuf_par (s : State) :
    s.zeroBuf.par = s.par := rfl
@[simp] theorem State.zeroBuf_rom (s : State) :
    s.zeroBuf.rom = s.rom := rfl
@[simp] theorem State.zeroBuf_buf (s : State) :
    s.zeroBuf.buf = List.replicate s.width 0 := rfl
@[simp] theorem State.zeroBuf_status (s : State) :
    s.zeroBuf.status = s.status := rfl
@[simp] theorem State.zeroBuf_ctrl (s : State) :
    s.zeroBuf.ctrl = s.ctrl := rfl
@[simp] theorem State.zeroBuf_txlog (s : State) :
    s.zeroBuf.txlog = s.txlog := rfl
@[simp] theorem State.zeroBuf_ackFails (s : State) :
    s.zeroBuf.ackFails = s.ackFails := rfl
@[simp] theorem State.zeroBuf_pending (s : State) :
    s.zeroBuf.pending = s.pending := rfl
@[simp] theorem State.zeroBuf_index (s : State) :
    s.zeroBuf.index = s.index := rfl
@[simp] theorem State.zeroBuf_responses (s : State) :
    s.zeroBuf.responses = s.responses := rfl
@[simp] theorem State.zeroBuf_width (s : State) :
    s.zeroBuf.width = s.width := rfl

/-! ### respond -/

@[simp] theorem State.respond_par (s : State) (k : Kind) (d : Byte) :
    (s.respond k d).par = s.par := rfl
@[simp] theorem State.respond_rom (s : State) (k : Kind) (d : Byte) :
    (s.respond k d).rom = s.rom := rfl
@[simp] theorem State.respond_buf (s : State) (k : Kind) (d : Byte) :
    (s.respond k d).buf = s.buf := rfl
@[simp] theorem State.respond_status (s : State) (k : Kind) (d : Byte) :
    (s.respond k d).status = s.status := rfl
@[simp] theorem State.respond_ctrl (s : State) (k : Kind) (d : Byte) :
    (s.respond k d).ctrl = s.ctrl := rfl
@[simp] theorem State.respond_txlog (s : State) (k : Kind) (d : Byte) :
    (s.respond k d).txlog = s.txlog := rfl
@[simp] theorem State.respond_ackFails (s : State) (k : Kind) (d : Byte) :
    (s.respond k d).ackFails = s.ackFails := rfl
@[simp] theorem State.respond_pending (s : State) (k : Kind) (d : Byte) :
    (s.respond k d).pending = s.pending := rfl
@[simp] theorem State.respond_index (s : State) (k : Kind) (d : Byte) :
    (s.respond k d).index = s.index := rfl
@[simp] theorem State.respond_responses (s : State) (k : Kind) (d : Byte) :
    (s.respond k d).responses = s.responses ++ [responseWord k d s.status] := rfl
@[simp] theorem State.respond_width (s : State) (k : Kind) (d : Byte) :
    (s.respond k d).width = s.width := rfl

/-! ### latchFault -/

@[simp] theorem State.latchFault_par (s : State) (c : Cause) (x : Byte) :
    (s.latchFault c x).par = s.par := rfl
@[simp] theorem State.latchFault_rom (s : State) (c : Cause) (x : Byte) :
    (s.latchFault c x).rom = s.rom := rfl
@[simp] theorem State.latchFault_buf (s : State) (c : Cause) (x : Byte) :
    (s.latchFault c x).buf = s.buf := rfl
@[simp] theorem State.latchFault_status (s : State) (c : Cause) (x : Byte) :
    (s.latchFault c x).status = { s.status with faulted := true, fcause := c, finfo := x } := rfl
@[simp] theorem State.latchFault_ctrl (s : State) (c : Cause) (x : Byte) :
    (s.latchFault c x).ctrl = s.ctrl := rfl
@[simp] theorem State.latchFault_txlog (s : State) (c : Cause) (x : Byte) :
    (s.latchFault c x).txlog = s.txlog := rfl
@[simp] theorem State.latchFault_ackFails (s : State) (c : Cause) (x : Byte) :
    (s.latchFault c x).ackFails = s.ackFails := rfl
@[simp] theorem State.latchFault_pending (s : State) (c : Cause) (x : Byte) :
    (s.latchFault c x).pending = s.pending := rfl
@[simp] theorem State.latchFault_index (s : State) (c : Cause) (x : Byte) :
    (s.latchFault c x).index = s.index := rfl
@[simp] theorem State.latchFault_responses (s : State) (c : Cause) (x : Byte) :
    (s.latchFault c x).responses = s.responses := rfl
@[simp] theorem State.latchFault_width (s : State) (c : Cause) (x : Byte) :
    (s.latchFault c x).width = s.width := rfl

/-! ### raiseFault -/

@[simp] theorem State.raiseFault_par (s : State) (c : Cause) (x : Byte) :
    (s.raiseFault c x).par = s.par := rfl
@[simp] theorem State.raiseFault_rom (s : State) (c : Cause) (x : Byte) :
    (s.raiseFault c x).rom = s.rom := rfl
@[simp] theorem State.raiseFault_buf (s : State) (c : Cause) (x : Byte) :
    (s.raiseFault c x).buf = s.buf := rfl
@[simp] theorem State.raiseFault_status (s : State) (c : Cause) (x : Byte) :
    (s.raiseFault c x).status = { s.status with faulted := true, fcause := c, finfo := x } := rfl
@[simp] theorem State.raiseFault_ctrl (s : State) (c : Cause) (x : Byte) :
    (s.raiseFault c x).ctrl = s.ctrl := rfl
@[simp] theorem State.raiseFault_txlog (s : State) (c : Cause) (x : Byte) :
    (s.raiseFault c x).txlog = s.txlog := rfl
@[simp] theorem State.raiseFault_ackFails (s : State) (c : Cause) (x : Byte) :
    (s.raiseFault c x).ackFails = s.ackFails := rfl
@[simp] theorem State.raiseFault_pending (s : State) (c : Cause) (x : Byte) :
    (s.raiseFault c x).pending = s.pending := rfl
@[simp] theorem State.raiseFault_index (s : State) (c : Cause) (x : Byte) :
    (s.raiseFault c x).index = s.index := rfl
@[simp] theorem State.raiseFault_responses (s : State) (c : Cause) (x : Byte) :
    (s.raiseFault c x).responses = s.responses ++ [responseWord .fault 0 { s.status with faulted := true, fcause := c, finfo := x }] := rfl
@[simp] theorem State.raiseFault_width (s : State) (c : Cause) (x : Byte) :
    (s.raiseFault c x).width = s.width := rfl

/-! ### presentCommand -/

@[simp] theorem State.presentCommand_par (s : State) (w : CommandWord) :
    (s.presentCommand w).par = s.par := rfl
@[simp] theorem State.presentCommand_rom (s : State) (w : CommandWord) :
    (s.presentCommand w).rom = s.rom := rfl
@[simp] theorem State.presentCommand_buf (s : State) (w : CommandWord) :
    (s.presentCommand w).buf = s.buf := rfl
@[simp] theorem State.presentCommand_status (s : State) (w : CommandWord) :
    (s.presentCommand w).status = s.status := rfl
@[simp] theorem State.presentCommand_ctrl (s : State) (w : CommandWord) :
    (s.presentCommand w).ctrl = s.ctrl := rfl
@[simp] theorem State.presentCommand_txlog (s : State) (w : CommandWord) :
    (s.presentCommand w).txlog = s.txlog := rfl
@[simp] theorem State.presentCommand_ackFails (s : State) (w : CommandWord) :
    (s.presentCommand w).ackFails = s.ackFails := rfl
@[simp] theorem State.presentCommand_pending (s : State) (w : CommandWord) :
    (s.presentCommand w).pending = .command w :: s.pending := rfl
@[simp] theorem State.presentCommand_index (s : State) (w : CommandWord) :
    (s.presentCommand w).index = s.index := rfl
@[simp] theorem State.presentCommand_responses (s : State) (w : CommandWord) :
    (s.presentCommand w).responses = s.responses := rfl
@[simp] theorem State.presentCommand_width (s : State) (w : CommandWord) :
    (s.presentCommand w).width = s.width := rfl

/-! ### clearStatus -/

@[simp] theorem State.clearStatus_par (s : State) :
    s.clearStatus.par = s.par := rfl
@[simp] theorem State.clearStatus_rom (s : State) :
    s.clearStatus.rom = s.rom := rfl
@[simp] theorem State.clearStatus_buf (s : State) :
    s.clearStatus.buf = s.buf := rfl
@[simp] theorem State.clearStatus_status (s : State) :
    s.clearStatus.status = { active := false, faulted := false, fcause := .none, finfo := 0 } := rfl
@[simp] theorem State.clearStatus_ctrl (s : State) :
    s.clearStatus.ctrl = s.ctrl := rfl
@[simp] theorem State.clearStatus_txlog (s : State) :
    s.clearStatus.txlog = s.txlog := rfl
@[simp] theorem State.clearStatus_ackFails (s : State) :
    s.clearStatus.ackFails = s.ackFails := rfl
@[simp] theorem State.clearStatus_pending (s : State) :
    s.clearStatus.pending = s.pending := rfl
@[simp] theorem State.clearStatus_index (s : State) :
    s.clearStatus.index = s.index := rfl
@[simp] theorem State.clearStatus_responses (s : State) :
    s.clearStatus.responses = s.responses := rfl
@[simp] theorem State.clearStatus_width (s : State) :
    s.clearStatus.width = s.width := rfl

/-! ### setActive -/

@[simp] theorem State.setActive_par (s : State) (b : Bool) :
    (s.setActive b).par = s.par := rfl
@[simp] theorem State.setActive_rom (s : State) (b : Bool) :
    (s.setActive b).rom = s.rom := rfl
@[simp] theorem State.setActive_buf (s : State) (b : Bool) :
    (s.setActive b).buf = s.buf := rfl
@[simp] theorem State.setActive_status (s : State) (b : Bool) :
    (s.setActive b).status = { s.status with active := b } := rfl
@[simp] theorem State.setActive_ctrl (s : State) (b : Bool) :
    (s.setActive b).ctrl = s.ctrl := rfl
@[simp] theorem State.setActive_txlog (s : State) (b : Bool) :
    (s.setActive b).txlog = s.txlog := rfl
@[simp] theorem State.setActive_ackFails (s : State) (b : Bool) :
    (s.setActive b).ackFails = s.ackFails := rfl
@[simp] theorem State.setActive_pending (s : State) (b : Bool) :
    (s.setActive b).pending = s.pending := rfl
@[simp] theorem State.setActive_index (s : State) (b : Bool) :
    (s.setActive b).index = s.index := rfl
@[simp] theorem State.setActive_responses (s : State) (b : Bool) :
    (s.setActive b).responses = s.responses := rfl
@[simp] theorem State.setActive_width (s : State) (b : Bool) :
    (s.setActive b).width = s.width := rfl

/-! ### unspecifiedBuf -/

@[simp] theorem State.unspecifiedBuf_par (s : State) :
    s.unspecifiedBuf.par = s.par := rfl
@[simp] theorem State.unspecifiedBuf_rom (s : State) :
    s.unspecifiedBuf.rom = s.rom := rfl
@[simp] theorem State.unspecifiedBuf_buf (s : State) :
    s.unspecifiedBuf.buf = (List.range s.width).map (Config.bufAfterFailedReset s.txlog.length) := rfl
@[simp] theorem State.unspecifiedBuf_status (s : State) :
    s.unspecifiedBuf.status = s.status := rfl
@[simp] theorem State.unspecifiedBuf_ctrl (s : State) :
    s.unspecifiedBuf.ctrl = s.ctrl := rfl
@[simp] theorem State.unspecifiedBuf_txlog (s : State) :
    s.unspecifiedBuf.txlog = s.txlog := rfl
@[simp] theorem State.unspecifiedBuf_ackFails (s : State) :
    s.unspecifiedBuf.ackFails = s.ackFails := rfl
@[simp] theorem State.unspecifiedBuf_pending (s : State) :
    s.unspecifiedBuf.pending = s.pending := rfl
@[simp] theorem State.unspecifiedBuf_index (s : State) :
    s.unspecifiedBuf.index = s.index := rfl
@[simp] theorem State.unspecifiedBuf_responses (s : State) :
    s.unspecifiedBuf.responses = s.responses := rfl
@[simp] theorem State.unspecifiedBuf_width (s : State) :
    s.unspecifiedBuf.width = s.width := rfl

end Sys2Proof.Machine
end

