-- ==== Sys2Proof/Laws/Ops.lean ====
section
/-! SUPPORT. One lemma per shared operation, saying what it can do: an acknowledgement, a controller transaction, the
single-address write path, a sequence of writes, the common checks and the operand forms. -/

namespace Sys2Proof.Machine

/-! ### Acknowledgements and transactions -/

theorem State.nextAck_eq_ok {s : State} : s.nextAck = .ok ↔ s.txlog.length ∉ s.ackFails := by
  unfold State.nextAck
  split <;> simp_all

theorem State.nextAck_eq_fail {s : State} : s.nextAck = .fail ↔ s.txlog.length ∈ s.ackFails := by
  unfold State.nextAck
  split <;> simp_all

theorem ctrlWrite_of_ok {s : State} (h : s.nextAck = .ok) (a : Nat) (p : Byte) :
    ctrlWrite a p s = .ok { s with txlog := s.txlog ++ [.wr a p], ctrl := Memory.write s.ctrl a p } := by
  simp [ctrlWrite, h]

theorem ctrlWrite_of_fail {s : State} (h : s.nextAck = .fail) (a : Nat) (p : Byte) :
    ctrlWrite a p s = .error
      { cause := .transport, info := BitVec.ofNat 8 a,
        state := { s with
          txlog := s.txlog ++ [.wr a p], ctrl := Memory.write s.ctrl a (Config.ctrlAfterFail s.txlog.length) } } := by
  simp [ctrlWrite, h]

theorem ctrlCmd_of_ok {s : State} (h : s.nextAck = .ok) (op : Nat) :
    ctrlCmd op s = .ok { s with txlog := s.txlog ++ [.cmd op] } := by
  simp [ctrlCmd, h]

theorem ctrlCmd_of_fail {s : State} (h : s.nextAck = .fail) (op : Nat) :
    ctrlCmd op s =
      .error { cause := .transport, info := 0xFF, state := { s with txlog := s.txlog ++ [.cmd op] } } := by
  simp [ctrlCmd, h]

theorem State.ack_cases (s : State) : s.nextAck = .ok ∨ s.nextAck = .fail := by
  cases s.nextAck <;> simp

/-! ### Sequences -/

@[simp] theorem forEach_nil {α : Type} (f : α → State → Except Raised State) (s : State) :
    forEach f [] s = .ok s := rfl

theorem forEach_cons_of_ok {α : Type} {f : α → State → Except Raised State} {x : α} {xs : List α} {s t : State}
    (h : f x s = .ok t) : forEach f (x :: xs) s = forEach f xs t := by
  simp [forEach, h]

theorem forEach_cons_of_error {α : Type} {f : α → State → Except Raised State} {x : α} {xs : List α} {s : State}
    {r : Raised} (h : f x s = .error r) : forEach f (x :: xs) s = .error r := by
  simp [forEach, h]

/-- What a sequence keeps: if every element takes `P` to `P` when it goes on and to `Q` when it raises, so does the
sequence. -/
theorem forEach_keeps {α : Type} {f : α → State → Except Raised State} {P : State → Prop} {Q : Raised → Prop}
    {xs : List α} (hok : ∀ x ∈ xs, ∀ s t, P s → f x s = .ok t → P t)
    (herr : ∀ x ∈ xs, ∀ s r, P s → f x s = .error r → Q r) {s : State} (hs : P s) :
    (∀ t, forEach f xs s = .ok t → P t) ∧ (∀ r, forEach f xs s = .error r → Q r) := by
  induction xs generalizing s with
  | nil =>
    refine ⟨fun t ht => ?_, fun r hr => ?_⟩
    · simp only [forEach_nil, Except.ok.injEq] at ht
      exact ht ▸ hs
    · simp at hr
  | cons x xs ih =>
    have hx : x ∈ x :: xs := by simp
    cases hf : f x s with
    | error r =>
      rw [forEach_cons_of_error hf]
      refine ⟨by simp, fun r' hr => ?_⟩
      simp only [Except.error.injEq] at hr
      exact hr ▸ herr x hx s r hs hf
    | ok t =>
      rw [forEach_cons_of_ok hf]
      exact ih (fun y hy => hok y (by simp [hy])) (fun y hy => herr y (by simp [hy])) (hok x hx s t hs hf)

/-- A sequence of `SegWrite` calls whose addresses and patterns are known. -/
def writeAll (ws : List (Nat × Byte)) (s : State) : Except Raised State :=
  forEach (fun w => segWrite w.1 w.2) ws s

/-- A sequence of writes whose patterns are computed as it runs is the sequence of the patterns computed at its start,
if each pattern reads only the ROM and the buffer at its own address, and no address is written twice. -/
theorem forEach_eq_writeAll {α : Type} {f : α → State → Except Raised State} {addr : α → Nat} {pat : α → Byte}
    {xs : List α} {s : State} (hnd : (xs.map addr).Nodup)
    (hf : ∀ x ∈ xs, ∀ t : State, t.rom = s.rom → t.bufAt (addr x) = s.bufAt (addr x) →
      f x t = segWrite (addr x) (pat x) t) :
    forEach f xs s = writeAll (xs.map fun x => (addr x, pat x)) s := by
  suffices h : ∀ t : State, t.rom = s.rom → (∀ x ∈ xs, t.bufAt (addr x) = s.bufAt (addr x)) →
      forEach f xs t = writeAll (xs.map fun x => (addr x, pat x)) t from h s rfl fun _ _ => rfl
  induction xs with
  | nil => intro t _ _; rfl
  | cons x xs ih =>
    intro t hrom hbuf
    have hx := hf x (by simp) t hrom (hbuf x (by simp))
    rw [List.map_cons, List.nodup_cons] at hnd
    obtain ⟨hxn, hnd'⟩ := hnd
    have ih' := ih hnd' fun y hy => hf y (by simp [hy])
    simp only [List.map_cons, writeAll, forEach, hx]
    rcases State.ack_cases (t.setBuf (addr x) (pat x)) with h | h
    · simp only [segWrite, ctrlWrite_of_ok h]
      refine ih' _ hrom fun y hy => ?_
      have hne : addr x ≠ addr y := fun he => hxn (List.mem_map.mpr ⟨y, hy, he.symm⟩)
      rw [← hbuf y (by simp [hy])]
      simp [State.bufAt, List.getElem?_set_ne hne]
    · simp only [segWrite, ctrlWrite_of_fail h]

end Sys2Proof.Machine
end

