-- ==== Sys2Proof/Laws/SegWrites.lean ====
section
/-! SUPPORT. What a sequence of `SegWrite` calls does: all of it when every acknowledgement is ok, its beginning when
one is not (spec/41_segment_writer.md R90, spec/60_exceptions.md R143). -/

namespace Sys2Proof.Machine

theorem State.bufAt_set (s : State) (l : List Byte) (a b : Nat) (p : Byte) (hl : l = s.buf.set a p) :
    l.getD b 0 = if b = a ∧ a < s.buf.length then p else s.bufAt b := by
  subst hl
  by_cases h : b = a
  · subst h
    by_cases hb : b < s.buf.length <;> simp [State.bufAt, hb]
  · simp [State.bufAt, h, List.getElem?_set_ne (Ne.symm h)]

/-- The state after one acknowledged `SegWrite`. -/
def State.written (s : State) (a : Nat) (p : Byte) : State :=
  { s with
    buf := s.buf.set a p
    txlog := s.txlog ++ [.wr a p]
    ctrl := Memory.write s.ctrl a p }

/-- The state after one `SegWrite` that was answered `fail`, before the fault is latched. -/
def State.unacknowledged (s : State) (a : Nat) (p : Byte) : State :=
  { s with
    buf := s.buf.set a p
    txlog := s.txlog ++ [.wr a p]
    ctrl := Memory.write s.ctrl a (Config.ctrlAfterFail s.txlog.length) }

/-- Everything one `SegWrite` can do. -/
theorem segWrite_cases (a : Nat) (p : Byte) (s : State) :
    (s.nextAck = .ok ∧ segWrite a p s = .ok (s.written a p)) ∨
    (s.nextAck = .fail ∧
      segWrite a p s =
        .error { cause := .transport, info := BitVec.ofNat 8 a, state := s.unacknowledged a p }) := by
  rcases State.ack_cases s with h | h
  · exact .inl ⟨h, ctrlWrite_of_ok (s := s.setBuf a p) h a p⟩
  · exact .inr ⟨h, ctrlWrite_of_fail (s := s.setBuf a p) h a p⟩

@[simp] theorem writeAll_nil (s : State) : writeAll [] s = .ok s := rfl

theorem writeAll_cons_of_ok {s : State} (h : s.nextAck = .ok) (w : Nat × Byte) (ws : List (Nat × Byte)) :
    writeAll (w :: ws) s = writeAll ws (s.written w.1 w.2) := by
  rcases segWrite_cases w.1 w.2 s with ⟨-, hs⟩ | ⟨hf, -⟩
  · exact forEach_cons_of_ok hs
  · simp [h] at hf

theorem writeAll_cons_of_fail {s : State} (h : s.nextAck = .fail) (w : Nat × Byte) (ws : List (Nat × Byte)) :
    writeAll (w :: ws) s =
      .error { cause := .transport, info := BitVec.ofNat 8 w.1, state := s.unacknowledged w.1 w.2 } := by
  rcases segWrite_cases w.1 w.2 s with ⟨hf, -⟩ | ⟨-, hs⟩
  · simp [h] at hf
  · exact forEach_cons_of_error hs

theorem State.AcksOk.tail {s t : State} {n : Nat} (h : s.AcksOk (n + 1)) (hl : t.txlog.length = s.txlog.length + 1)
    (ha : t.ackFails = s.ackFails) : t.AcksOk n := by
  intro k hk
  rw [hl, ha, Nat.add_assoc, Nat.add_comm 1 k]
  exact h (k + 1) (by omega)

theorem State.AcksOk.head {s : State} {n : Nat} (h : s.AcksOk (n + 1)) : s.nextAck = .ok :=
  State.nextAck_eq_ok.mpr (by simpa using h 0 (by omega))

theorem State.FailsAfter.tail {s t : State} {n : Nat} (h : s.FailsAfter (n + 1))
    (hl : t.txlog.length = s.txlog.length + 1) (ha : t.ackFails = s.ackFails) : t.FailsAfter n := by
  refine ⟨h.1.tail hl ha, ?_⟩
  rw [hl, ha, Nat.add_assoc, Nat.add_comm 1 n]
  exact h.2

theorem written_bufAt (s : State) (a b : Nat) (p : Byte) :
    (s.written a p).bufAt b = if b = a ∧ a < s.buf.length then p else s.bufAt b :=
  State.bufAt_set s _ a b p rfl

theorem unacknowledged_bufAt (s : State) (a b : Nat) (p : Byte) :
    (s.unacknowledged a p).bufAt b = if b = a ∧ a < s.buf.length then p else s.bufAt b :=
  State.bufAt_set s _ a b p rfl

/-- When the controller answers `ok` to each of the writes, all of them are made and nothing else changes. -/
theorem writeAll_ok {ws : List (Nat × Byte)} {s : State} (hacks : s.AcksOk ws.length)
    (hnd : (ws.map Prod.fst).Nodup) (hin : ∀ w ∈ ws, w.1 < s.buf.length) :
    ∃ t, writeAll ws s = .ok t ∧ Wrote s t ws ∧ Untouched s t ∧ t.status = s.status ∧
      t.responses = s.responses := by
  induction ws generalizing s with
  | nil => exact ⟨s, rfl, by simp [Wrote], by simp [Untouched], rfl, rfl⟩
  | cons w ws ih =>
    rw [List.map_cons, List.nodup_cons] at hnd
    obtain ⟨hw, hnd⟩ := hnd
    have hlen : (s.written w.1 w.2).buf.length = s.buf.length := by simp [State.written]
    obtain ⟨t, ht, ⟨hlog, hmem, hout, hbl⟩, hun, hst, hre⟩ :=
      ih (hacks.tail (t := s.written w.1 w.2) (by simp [State.written]) rfl) hnd
        (fun v hv => hlen ▸ hin v (by simp [hv]))
    refine ⟨t, by rw [writeAll_cons_of_ok hacks.head, ht], ⟨?_, ?_, ?_, hbl.trans hlen⟩, hun, hst, hre⟩
    · simp [hlog, State.written]
    · intro v hv
      rcases List.mem_cons.mp hv with rfl | hv
      · have := hout v.1 hw
        rw [this.1, this.2, written_bufAt]
        simp [State.written, hin v (by simp)]
      · exact hmem v hv
    · intro a ha
      simp only [List.map_cons, List.mem_cons, not_or] at ha
      have := hout a ha.2
      rw [this.1, this.2, written_bufAt]
      simp [State.written, ha.1, Memory.read?_write_of_ne ha.1]

/-- When it answers `ok` to the first `k` and `fail` to the next, the sequence stops there (R143). -/
theorem writeAll_fail {ws : List (Nat × Byte)} {s : State} {k : Nat} (h : k < ws.length) (hacks : s.FailsAfter k)
    (hnd : (ws.map Prod.fst).Nodup) (hin : ∀ w ∈ ws, w.1 < s.buf.length) :
    ∃ r, writeAll ws s = .error r ∧ r.cause = .transport ∧ r.info = BitVec.ofNat 8 (ws[k]).1 ∧
      r.state.txlog = s.txlog ++ (ws.take (k + 1)).map (fun w => Tx.wr w.1 w.2) ∧
      (∀ w ∈ ws.take (k + 1), r.state.bufAt w.1 = w.2) ∧
      (∀ w ∈ ws.take k, Memory.read? r.state.ctrl w.1 = some w.2) ∧
      (∀ b, b ∉ (ws.take (k + 1)).map Prod.fst →
        r.state.bufAt b = s.bufAt b ∧ Memory.read? r.state.ctrl b = Memory.read? s.ctrl b) ∧
      r.state.buf.length = s.buf.length ∧ Untouched s r.state ∧ r.state.status = s.status ∧
      r.state.responses = s.responses := by
  induction ws generalizing s k with
  | nil => simp at h
  | cons w ws ih =>
    rw [List.map_cons, List.nodup_cons] at hnd
    obtain ⟨hw, hnd⟩ := hnd
    cases k with
    | zero =>
      have hf : s.nextAck = .fail := State.nextAck_eq_fail.mpr (by simpa using hacks.2)
      refine ⟨_, writeAll_cons_of_fail hf w ws, rfl, rfl, by simp [State.unacknowledged], ?_, by simp, ?_,
        by simp [State.unacknowledged], by simp [Untouched, State.unacknowledged], rfl, rfl⟩
      · intro v hv
        simp only [Nat.zero_add, List.take_succ_cons, List.take_zero, List.mem_singleton] at hv
        subst hv
        rw [unacknowledged_bufAt]
        simp [hin v (by simp)]
      · intro b hb
        simp only [Nat.zero_add, List.take_succ_cons, List.take_zero, List.map_cons, List.map_nil,
          List.mem_singleton] at hb
        rw [unacknowledged_bufAt]
        simp [State.unacknowledged, hb, Memory.read?_write_of_ne hb]
    | succ k =>
      have hlen : (s.written w.1 w.2).buf.length = s.buf.length := by simp [State.written]
      have hk : k < ws.length := by simpa using h
      obtain ⟨r, hr, hc, hi, hlog, hbuf, hctl, hout, hbl, hun, hst, hre⟩ :=
        ih hk (hacks.tail (t := s.written w.1 w.2) (by simp [State.written]) rfl) hnd
          (fun v hv => hlen ▸ hin v (by simp [hv]))
      have hsub : ∀ n, w.1 ∉ (ws.take n).map Prod.fst := fun n hm => hw (by
        obtain ⟨v, hv, he⟩ := List.mem_map.mp hm
        exact List.mem_map.mpr ⟨v, List.mem_of_mem_take hv, he⟩)
      refine ⟨r, by rw [writeAll_cons_of_ok hacks.1.head, hr], hc, by simpa using hi, ?_, ?_, ?_, ?_,
        hbl.trans hlen, hun, hst, hre⟩
      · simp [hlog, State.written]
      · intro v hv
        rcases List.mem_cons.mp (by simpa using hv) with rfl | hv
        · rw [(hout v.1 (hsub _)).1, written_bufAt]
          simp [hin v (by simp)]
        · exact hbuf v hv
      · intro v hv
        rcases List.mem_cons.mp (by simpa using hv) with rfl | hv
        · rw [(hout v.1 (hsub _)).2]
          simp [State.written]
        · exact hctl v hv
      · intro b hb
        simp only [List.take_succ_cons, List.map_cons, List.mem_cons, not_or] at hb
        rw [(hout b hb.2).1, (hout b hb.2).2, written_bufAt]
        simp [State.written, hb.1, Memory.read?_write_of_ne hb.1]

/-- The state a sequence of writes ends in, gone through or stopped. -/
def endState : Except Raised State → State
  | .ok s => s
  | .error r => r.state

/-- However a sequence of writes ends, it logged some first part of them, and the controller reads as before at every
address that part does not name; no premise on the state. -/
theorem writeAll_log (ws : List (Nat × Byte)) (s : State) :
    ∃ n, n ≤ ws.length ∧
      (endState (writeAll ws s)).txlog = s.txlog ++ (ws.take n).map (fun w => Tx.wr w.1 w.2) ∧
      ∀ a, a ∉ (ws.take n).map Prod.fst →
        Memory.read? (endState (writeAll ws s)).ctrl a = Memory.read? s.ctrl a := by
  induction ws generalizing s with
  | nil => exact ⟨0, by simp, by simp [endState], by simp [endState]⟩
  | cons w ws ih =>
    rcases State.ack_cases s with h | h
    · obtain ⟨n, hn, hlog, hout⟩ := ih (s.written w.1 w.2)
      rw [writeAll_cons_of_ok h]
      refine ⟨n + 1, by simpa using hn, by rw [hlog]; simp [State.written], fun a ha => ?_⟩
      simp only [List.take_succ_cons, List.map_cons, List.mem_cons, not_or] at ha
      rw [hout a ha.2]
      exact Memory.read?_write_of_ne ha.1 _ _
    · rw [writeAll_cons_of_fail h]
      refine ⟨1, by simp, by simp [endState, State.unacknowledged], fun a ha => ?_⟩
      simp only [List.take_succ_cons, List.take_zero, List.map_cons, List.map_nil, List.mem_singleton] at ha
      exact Memory.read?_write_of_ne ha _ _

end Sys2Proof.Machine
end

