-- ==== Sys2Proof/Laws/Exec.lean ====
section
/-! SUPPORT. What a command can do, said once: the common checks, the commands that write, and the inversion of
`exec`. -/

namespace Sys2Proof.Machine

/-! ### The common checks (spec/60_exceptions.md R141) -/

theorem commandChecks_of_faulted {s : State} (h : s.status.faulted = true) (op : Byte) (body : State → State) :
    commandChecks op body s = s.respond .refused 0 := by
  simp [commandChecks, h]

theorem commandChecks_of_inactive {s : State} {op : Byte} (hf : s.status.faulted = false)
    (ha : s.status.active = false) (hop : op ≠ 0x01) (body : State → State) :
    commandChecks op body s = s.raiseFault .inactive op := by
  unfold commandChecks
  rw [if_neg (by simp [hf]), if_pos (by simpa [ha] using hop)]

theorem commandChecks_of_ready {s : State} (h : s.Ready) (op : Byte) (body : State → State) :
    commandChecks op body s = body s := by
  simp [commandChecks, h.1, h.2]

theorem commandChecks_of_lookup {s : State} (h : s.status.faulted = false) (body : State → State) :
    commandChecks 0x01 body s = body s := by
  simp [commandChecks, h]

/-- Everything the common checks can answer. -/
theorem commandChecks_cases (op : Byte) (body : State → State) (s : State) :
    (s.status.faulted = true ∧ commandChecks op body s = s.respond .refused 0) ∨
    (s.status.faulted = false ∧ s.status.active = false ∧ op ≠ 0x01 ∧
      commandChecks op body s = s.raiseFault .inactive op) ∨
    (s.status.faulted = false ∧ (s.status.active = true ∨ op = 0x01) ∧ commandChecks op body s = body s) := by
  cases hf : s.status.faulted with
  | true => exact .inl ⟨rfl, commandChecks_of_faulted hf op body⟩
  | false =>
    cases ha : s.status.active with
    | true => exact .inr (.inr ⟨rfl, .inl rfl, commandChecks_of_ready ⟨hf, ha⟩ op body⟩)
    | false =>
      by_cases hop : op = 0x01
      · exact .inr (.inr ⟨rfl, .inr hop, hop ▸ commandChecks_of_lookup hf body⟩)
      · exact .inr (.inl ⟨rfl, rfl, hop, commandChecks_of_inactive hf ha hop body⟩)

/-- A raise of the model is the state `afterFault` describes. -/
theorem raiseFault_eq_afterFault (s : State) (cause : Cause) (info : Byte) :
    s.raiseFault cause info = afterFault s cause info := rfl

theorem finish_ok (s : State) : finish (.ok s) = s.respond .ok 0 := rfl

theorem finish_error (r : Raised) : finish (.error r) = r.state.raiseFault r.cause r.info := rfl

/-! ### Glyphs -/

theorem State.glyph_of_mem (s : State) {c : Int} (h : 0 ≤ c ∧ c ≤ 15) :
    s.glyph c = s.rom[c.toNat]'(by omega) := by
  simp [State.glyph, h]

theorem State.glyph_of_not_mem (s : State) {c : Int} (h : ¬(0 ≤ c ∧ c ≤ 15)) : s.glyph c = s.rom[11] := by
  unfold State.glyph
  rw [dif_neg h]
  rfl

/-- A glyph depends on the ROM alone. -/
theorem State.glyph_congr {s t : State} (h : t.rom = s.rom) (c : Int) : t.glyph c = s.glyph c := by
  unfold State.glyph
  simp only [h]

/-- The glyph of a code operand (R80, R83). -/
theorem State.glyph_codeOperand (s : State) (c : Byte) :
    s.glyph (codeOperand c) = if h : c.toNat ≤ 15 then s.rom[c.toNat] else s.rom[11] := by
  unfold codeOperand
  split
  · rw [s.glyph_of_mem (by omega)]
    rfl
  · rw [s.glyph_of_not_mem (by omega)]

/-! ### The commands that write -/

/-- No command writes an address twice. -/
theorem commandWrites_nodup (i : Instr) (s : State) : ((commandWrites i s).map Prod.fst).Nodup := by
  have hrange : ∀ f : Nat → Byte, (((List.range s.width).map fun a => (a, f a)).map Prod.fst).Nodup := fun f => by
    rw [List.map_map]
    exact (List.map_id _).symm ▸ List.nodup_range
  cases i with
  | clrall => exact hrange _
  | setind e => exact hrange _
  | rend6 v =>
    simp only [commandWrites]
    split <;> simp
  | rend4 v => simp [commandWrites]
  | _ => simp [commandWrites]

/-- An accepted command writes positions of the display only. -/
theorem commandWrites_lt {i : Instr} {s : State} (h : accepted i s) :
    ∀ w ∈ commandWrites i s, w.1 < s.width := by
  intro w hw
  cases i with
  | rend6 v =>
    simp only [accepted, commandWrites] at h hw
    split at hw <;>
    · simp only [List.map_cons, List.map_nil, List.mem_cons, List.not_mem_nil, or_false] at hw
      rcases hw with rfl | rfl | rfl | rfl | rfl | rfl <;> simp <;> omega
  | rend4 v =>
    simp only [accepted, commandWrites] at h hw
    simp only [List.map_cons, List.map_nil, List.mem_cons, List.not_mem_nil, or_false] at hw
    rcases hw with rfl | rfl | rfl | rfl <;> simp <;> omega
  | clrall =>
    simp only [commandWrites, List.mem_map, List.mem_range] at hw
    obtain ⟨a, ha, rfl⟩ := hw
    exact ha
  | setind e =>
    simp only [commandWrites, List.mem_map, List.mem_range] at hw
    obtain ⟨a, ha, rfl⟩ := hw
    exact ha
  | setbit a b e =>
    simp only [accepted, commandWrites, List.mem_singleton] at h hw
    exact hw ▸ h.1
  | wpat a p =>
    simp only [accepted, commandWrites, List.mem_singleton] at h hw
    exact hw ▸ h
  | setdig a c =>
    simp only [accepted, commandWrites, List.mem_singleton] at h hw
    exact hw ▸ h
  | clra a =>
    simp only [accepted, commandWrites, List.mem_singleton] at h hw
    exact hw ▸ h
  | lookup c => simp [commandWrites] at hw
  | read a => simp [commandWrites] at hw

theorem withAddr_of_lt {a : Byte} {s : State} (h : a.toNat < s.width) (body : State → State) :
    withAddr a body s = body s := by
  simp [withAddr, h]

theorem withAddr_of_le {a : Byte} {s : State} (h : s.width ≤ a.toNat) (body : State → State) :
    withAddr a body s = s.raiseFault .addr a := by
  simp [withAddr, h]

theorem withBitIndex_of_lt {b : Byte} {s : State} (h : b.toNat < 8) (body : State → State) :
    withBitIndex b body s = body s := by
  simp [withBitIndex, h]

theorem withBitIndex_of_le {b : Byte} {s : State} (h : 8 ≤ b.toNat) (body : State → State) :
    withBitIndex b body s = s.raiseFault .bitIdx b := by
  simp [withBitIndex, h]

theorem withPositions_of_le {n : Nat} {s : State} (h : n ≤ s.width) (body : State → State) :
    withPositions n body s = body s := by
  simp [withPositions, h]

theorem withPositions_of_lt {n : Nat} {s : State} (h : s.width < n) (body : State → State) :
    withPositions n body s = s.raiseFault .addr (BitVec.ofNat 8 (n - 1)) := by
  simp [withPositions, h]

/-- One write is a sequence of one. -/
theorem writeAll_singleton (a : Nat) (p : Byte) (s : State) : writeAll [(a, p)] s = segWrite a p s := by
  unfold writeAll forEach
  cases h : segWrite a p s <;> simp [forEach]

/-- The codes of a renderer, written one by one, are the patterns known at its start. -/
theorem forEach_writeCode {kcs : List (Nat × Int)} {s : State} (h : (kcs.map Prod.fst).Nodup) :
    forEach writeCode kcs s = writeAll (kcs.map fun kc => (kc.1, s.glyph kc.2)) s :=
  forEach_eq_writeAll h fun kc _ t hrom _ => by rw [writeCode, State.glyph_congr hrom]

/-- Edits of one bit at distinct addresses are the patterns known at their start. -/
theorem forEach_editBit {as : List Nat} {s : State} (h : as.Nodup) (b : Nat) (e : Bool) :
    forEach (editBit b e) as s = writeAll (as.map fun a => (a, setBitFn (s.bufAt a) b e)) s :=
  forEach_eq_writeAll (addr := id) (by simpa using h) fun a _ t _ hbuf => by
    simp only [id] at hbuf ⊢
    rw [editBit, hbuf]

/-- Zero writes at distinct addresses. -/
theorem forEach_zero {as : List Nat} {s : State} (h : as.Nodup) :
    forEach (fun a => segWrite a 0) as s = writeAll (as.map fun a => (a, 0)) s :=
  forEach_eq_writeAll (addr := id) (by simpa using h) fun _ _ _ _ _ => rfl

/-- An accepted command that writes is its writes in their order, then its response. -/
theorem exec_of_writes {i : Instr} {s : State} (hw : commandWrites i s ≠ []) (hs : s.Ready) (ha : accepted i s) :
    exec i s = .next (finish (writeAll (commandWrites i s) s)) := by
  cases i with
  | lookup c => simp [commandWrites] at hw
  | read a => simp [commandWrites] at hw
  | wpat a p =>
    show execWpat a p s = _
    rw [execWpat, commandChecks_of_ready hs, withAddr_of_lt ha, commandWrites, writeAll_singleton]
  | setdig a c =>
    show execSetdig a c s = _
    rw [execSetdig, commandChecks_of_ready hs, withAddr_of_lt ha, commandWrites, writeAll_singleton]
    rfl
  | clra a =>
    show execClra a s = _
    rw [execClra, commandChecks_of_ready hs, withAddr_of_lt ha, commandWrites, writeAll_singleton]
  | clrall =>
    show execClrall s = _
    rw [execClrall, commandChecks_of_ready hs, forEach_zero List.nodup_range, commandWrites]
  | setbit a b e =>
    show execSetbit a b e s = _
    rw [execSetbit, commandChecks_of_ready hs, withAddr_of_lt ha.1, withBitIndex_of_lt ha.2, commandWrites,
      writeAll_singleton]
    rfl
  | setind e =>
    show execSetind e s = _
    rw [execSetind, commandChecks_of_ready hs, forEach_editBit List.nodup_range]
    rfl
  | rend6 v =>
    show execRend6 v s = _
    have hv : (valueOperand v = 0) = (v = 0) := propext valueOperand_eq_zero
    rw [execRend6, commandChecks_of_ready hs, withPositions_of_le ha, rend6Writes_eq,
      forEach_writeCode (by rw [List.map_map]; split <;> simp), commandWrites, List.map_map]
    simp only [hv]
    rfl
  | rend4 v =>
    show execRend4 v s = _
    rw [execRend4, commandChecks_of_ready hs, withPositions_of_le ha, rend4Writes_eq,
      forEach_writeCode (by simp), commandWrites, List.map_map]
    rfl

/-- A command that writes is neither LOOKUP nor READ. -/
theorem opcode_of_commandWrites {i : Instr} {s : State} (h : commandWrites i s ≠ []) :
    i.opcode ≠ 0x01 ∧ i.opcode ≠ 0x02 := by
  cases i <;> simp [commandWrites, Instr.opcode] at h ⊢

/-- `exec_of_writes` with its premises, as `exec_cases` states them. -/
theorem accepted_cases {i : Instr} {s : State} (hw : commandWrites i s ≠ []) (hs : s.Ready) (ha : accepted i s) :
    s.Ready ∧ accepted i s ∧ commandWrites i s ≠ [] ∧
      exec i s = .next (finish (writeAll (commandWrites i s) s)) :=
  ⟨hs, ha, hw, exec_of_writes hw hs ha⟩

/-- Everything a command can do: it is refused; it raises F_INACTIVE; it is LOOKUP or READ and answers data; it raises a
precise fault of its operands; or it is one that writes, is accepted and makes its writes. -/
theorem exec_cases (i : Instr) (s : State) :
    (s.status.faulted = true ∧ exec i s = .next (s.respond .refused 0)) ∨
    (s.status.faulted = false ∧ s.status.active = false ∧ i.opcode ≠ 0x01 ∧
      exec i s = .next (s.raiseFault .inactive i.opcode)) ∨
    (s.status.faulted = false ∧ (i.opcode = 0x01 ∨ i.opcode = 0x02) ∧
      ∃ d, exec i s = .next (s.respond .data d)) ∨
    (s.Ready ∧ ∃ x : Byte, s.width ≤ x.toNat ∧ exec i s = .next (s.raiseFault .addr x)) ∨
    (s.Ready ∧ ∃ x : Byte, 8 ≤ x.toNat ∧ exec i s = .next (s.raiseFault .bitIdx x)) ∨
    (s.Ready ∧ accepted i s ∧ commandWrites i s ≠ [] ∧ exec i s = .next (finish (writeAll (commandWrites i s) s))) := by
  cases hf : s.status.faulted with
  | true =>
    refine .inl ⟨rfl, ?_⟩
    cases i <;> exact congrArg Host.Outcome.next (commandChecks_of_faulted hf _ _)
  | false =>
    refine .inr ?_
    cases ha : s.status.active with
    | false =>
      by_cases hop : i.opcode = 0x01
      · cases i <;> first
          | exact .inr (.inl ⟨rfl, .inl rfl, _, congrArg Host.Outcome.next (commandChecks_of_lookup hf _)⟩)
          | exact absurd hop (by simp only [Instr.opcode]; decide)
      · refine .inl ⟨rfl, rfl, hop, ?_⟩
        cases i <;> exact congrArg Host.Outcome.next (commandChecks_of_inactive hf ha hop _)
    | true =>
      refine .inr ?_
      have hs : s.Ready := ⟨hf, ha⟩
      have hready : ∀ op body, Host.Outcome.next (φ := Fault) (ρ := Refusal) (commandChecks op body s)
          = .next (body s) := fun op body => congrArg _ (commandChecks_of_ready hs op body)
      have haddr : ∀ (a : Byte) (op : Byte) (body : State → State), s.width ≤ a.toNat →
          Host.Outcome.next (φ := Fault) (ρ := Refusal) (commandChecks op (withAddr a body) s)
            = .next (s.raiseFault .addr a) := fun a op body h => by
        rw [hready, withAddr_of_le h]
      cases i with
      | lookup c => exact .inl ⟨rfl, .inl rfl, _, hready _ _⟩
      | read a =>
        rcases Nat.lt_or_ge a.toNat s.width with h | h
        · exact .inl ⟨rfl, .inr rfl, s.bufAt a.toNat, by
            show execRead a s = _
            rw [execRead, hready, withAddr_of_lt h]⟩
        · exact .inr (.inl ⟨hs, a, h, haddr a _ _ h⟩)
      | wpat a p =>
        rcases Nat.lt_or_ge a.toNat s.width with h | h
        · exact .inr (.inr (.inr (accepted_cases (by simp [commandWrites]) hs h)))
        · exact .inr (.inl ⟨hs, a, h, haddr a _ _ h⟩)
      | setdig a c =>
        rcases Nat.lt_or_ge a.toNat s.width with h | h
        · exact .inr (.inr (.inr (accepted_cases (by simp [commandWrites]) hs h)))
        · exact .inr (.inl ⟨hs, a, h, haddr a _ _ h⟩)
      | clra a =>
        rcases Nat.lt_or_ge a.toNat s.width with h | h
        · exact .inr (.inr (.inr (accepted_cases (by simp [commandWrites]) hs h)))
        · exact .inr (.inl ⟨hs, a, h, haddr a _ _ h⟩)
      | clrall =>
        refine .inr (.inr (.inr (accepted_cases ?_ hs trivial)))
        unfold commandWrites State.width
        cases s.par.width <;> simp [Width.positions]
      | setind e =>
        refine .inr (.inr (.inr (accepted_cases ?_ hs trivial)))
        unfold commandWrites State.width
        cases s.par.width <;> simp [Width.positions]
      | setbit a b e =>
        rcases Nat.lt_or_ge a.toNat s.width with h | h
        · rcases Nat.lt_or_ge b.toNat 8 with h' | h'
          · exact .inr (.inr (.inr (accepted_cases (by simp [commandWrites]) hs ⟨h, h'⟩)))
          · refine .inr (.inr (.inl ⟨hs, b, h', ?_⟩))
            show execSetbit a b e s = _
            rw [execSetbit, hready, withAddr_of_lt h, withBitIndex_of_le h']
        · exact .inr (.inl ⟨hs, a, h, haddr a _ _ h⟩)
      | rend6 v =>
        rcases Nat.lt_or_ge s.width 6 with h | h
        · refine .inr (.inl ⟨hs, 5, by simp; omega, ?_⟩)
          show execRend6 v s = _
          rw [execRend6, hready, withPositions_of_lt h]
          rfl
        · refine .inr (.inr (.inr (accepted_cases ?_ hs h)))
          simp only [commandWrites]
          split <;> simp
      | rend4 v =>
        rcases Nat.lt_or_ge s.width 5 with h | h
        · refine .inr (.inl ⟨hs, 4, by simp; omega, ?_⟩)
          show execRend4 v s = _
          rw [execRend4, hready, withPositions_of_lt h]
          rfl
        · exact .inr (.inr (.inr (accepted_cases (by simp [commandWrites]) hs h)))

end Sys2Proof.Machine
end

