-- ==== Sys2Proof/Laws/Lifecycle.lean ====
section
/-! SUPPORT. What the two transaction sequences of reset and detach do: the startup codes and the zero writes to the
controller (spec/70_reset_and_hazards.md R170, R172, R174). -/

namespace Sys2Proof.Machine

/-- Either the next `n` transactions are all answered `ok`, or there is a first one that is not. -/
theorem State.acks_cases (s : State) (n : Nat) : s.AcksOk n ∨ ∃ k, k < n ∧ s.FailsAfter k := by
  induction n with
  | zero => exact .inl fun k hk => absurd hk (Nat.not_lt_zero k)
  | succ n ih =>
    rcases ih with h | ⟨k, hk, h⟩
    · by_cases hn : s.txlog.length + n ∈ s.ackFails
      · exact .inr ⟨n, Nat.lt_succ_self n, h, hn⟩
      · refine .inl fun k hk => ?_
        rcases Nat.lt_succ_iff_lt_or_eq.mp hk with hk | rfl
        · exact h k hk
        · exact hn
    · exact .inr ⟨k, Nat.lt_succ_of_lt hk, h⟩

/-- The startup codes, all acknowledged: they are logged, nothing else changes. -/
theorem forEach_ctrlCmd_ok {ops : List Nat} {s : State} (h : s.AcksOk ops.length) :
    forEach ctrlCmd ops s = .ok { s with txlog := s.txlog ++ ops.map Tx.cmd } := by
  induction ops generalizing s with
  | nil => simp
  | cons op ops ih =>
    rw [forEach_cons_of_ok (ctrlCmd_of_ok h.head op),
      ih (h.tail (t := { s with txlog := s.txlog ++ [.cmd op] }) (by simp) rfl)]
    simp

/-- The startup codes, one answered `fail`: it ends the sequence with FINFO 0xFF (R172). -/
theorem forEach_ctrlCmd_fail {ops : List Nat} {s : State} {k : Nat} (hk : k < ops.length) (h : s.FailsAfter k) :
    forEach ctrlCmd ops s =
      .error { cause := .transport, info := 0xFF,
               state := { s with txlog := s.txlog ++ (ops.take (k + 1)).map Tx.cmd } } := by
  induction ops generalizing s k with
  | nil => simp at hk
  | cons op ops ih =>
    cases k with
    | zero =>
      have hf : s.nextAck = .fail := State.nextAck_eq_fail.mpr (by simpa using h.2)
      rw [forEach_cons_of_error (ctrlCmd_of_fail hf op)]
      simp
    | succ k =>
      rw [forEach_cons_of_ok (ctrlCmd_of_ok h.1.head op), ih (by simpa using hk)
        (h.tail (t := { s with txlog := s.txlog ++ [.cmd op] }) (by simp) rfl)]
      simp

/-- The controller view after zero writes to `as`. -/
def zeroed (m : Memory) (as : List Nat) : Memory := as.foldl (fun m a => Memory.write m a 0) m

theorem zeroed_read? (m : Memory) (as : List Nat) (b : Nat) :
    Memory.read? (zeroed m as) b = if b ∈ as then some 0 else Memory.read? m b := by
  induction as generalizing m with
  | nil => simp [zeroed]
  | cons a as ih =>
    show Memory.read? (zeroed (Memory.write m a 0) as) b = _
    rw [ih, Memory.read?_write]
    by_cases hb : b = a <;> by_cases hm : b ∈ as <;> simp [hb, hm]

theorem zeroed_wf {m : Memory} (h : Memory.wf m) (as : List Nat) : Memory.wf (zeroed m as) := by
  induction as generalizing m with
  | nil => exact h
  | cons a as ih => exact ih (Memory.write_wf h a 0)

/-- Zero writes to the controller, all acknowledged. -/
theorem forEach_ctrlWrite_ok {as : List Nat} {s : State} (h : s.AcksOk as.length) :
    forEach (fun a => ctrlWrite a 0) as s =
      .ok { s with txlog := s.txlog ++ as.map (fun a => Tx.wr a 0), ctrl := zeroed s.ctrl as } := by
  induction as generalizing s with
  | nil => simp [zeroed]
  | cons a as ih =>
    rw [forEach_cons_of_ok (f := fun a => ctrlWrite a 0) (ctrlWrite_of_ok h.head a 0), ih (h.tail
      (t := { s with txlog := s.txlog ++ [.wr a 0], ctrl := Memory.write s.ctrl a 0 }) (by simp) rfl)]
    simp [zeroed]

/-- Zero writes to the controller, one answered `fail`: those before it are made, it is logged and leaves its address
unspecified, the rest are not made (R143). -/
theorem forEach_ctrlWrite_fail {as : List Nat} {s : State} {k : Nat} (hk : k < as.length) (h : s.FailsAfter k) :
    forEach (fun a => ctrlWrite a 0) as s =
      .error { cause := .transport, info := BitVec.ofNat 8 as[k],
               state := { s with
                 txlog := s.txlog ++ (as.take (k + 1)).map (fun a => Tx.wr a 0)
                 ctrl := Memory.write (zeroed s.ctrl (as.take k)) as[k]
                   (Config.ctrlAfterFail (s.txlog.length + k)) } } := by
  induction as generalizing s k with
  | nil => simp at hk
  | cons a as ih =>
    cases k with
    | zero =>
      have hf : s.nextAck = .fail := State.nextAck_eq_fail.mpr (by simpa using h.2)
      rw [forEach_cons_of_error (f := fun a => ctrlWrite a 0) (ctrlWrite_of_fail hf a 0)]
      simp [zeroed]
    | succ k =>
      rw [forEach_cons_of_ok (f := fun a => ctrlWrite a 0) (ctrlWrite_of_ok h.1.head a 0),
        ih (by simpa using hk) (h.tail
          (t := { s with txlog := s.txlog ++ [.wr a 0], ctrl := Memory.write s.ctrl a 0 }) (by simp) rfl)]
      simp [zeroed, Nat.add_assoc, Nat.add_comm 1 k]

theorem InitOpcodes.inOrder_length (k : InitOpcodes) : k.inOrder.length = 4 := rfl

/-- What a reset does up to the zeroed buffer, when the startup codes are acknowledged (R170). -/
theorem resetInput_of_startup {s : State} (h : s.AcksOk 4) :
    resetInput s =
      let s1 := ({ s.clearStatus with txlog := s.txlog ++ s.par.initOpcodes.inOrder.map Tx.cmd }).zeroBuf
      match if s.par.resetClearWrites then clearController s1 else .ok s1 with
      | .error r => r.latched
      | .ok s2 => s2.setActive true := by
  have h' : s.clearStatus.AcksOk s.par.initOpcodes.inOrder.length := h
  unfold resetInput
  rw [forEach_ctrlCmd_ok h']
  rfl

end Sys2Proof.Machine
end

