-- ==== Sys2Proof/Laws/PerInstr.lean ====
section
/-! SUPPORT. Facts about every command as syntax, one lemma per constructor. -/

namespace Sys2Proof.Laws

/-- The OP field of a command's word is its opcode, one of the map's ten (spec/30_encoding.md R60, R63), and the Z field
is zero (R62). -/
def EncodedOpcode.Statement (i : Instr) : Prop :=
  fieldOp (encode i) = i.opcode ∧ fieldZ (encode i) = 0 ∧ 1 ≤ i.opcode.toNat ∧ i.opcode.toNat ≤ 10

theorem EncodedOpcode.lookup (c : Byte) : EncodedOpcode.Statement (.lookup c) :=
  ⟨by simp [encode], by simp [encode], opcode_range _⟩

theorem EncodedOpcode.read (a : Byte) : EncodedOpcode.Statement (.read a) :=
  ⟨by simp [encode], by simp [encode], opcode_range _⟩

theorem EncodedOpcode.wpat (a p : Byte) : EncodedOpcode.Statement (.wpat a p) :=
  ⟨by simp [encode], by simp [encode], opcode_range _⟩

theorem EncodedOpcode.setdig (a c : Byte) : EncodedOpcode.Statement (.setdig a c) :=
  ⟨by simp [encode], by simp [encode], opcode_range _⟩

theorem EncodedOpcode.clra (a : Byte) : EncodedOpcode.Statement (.clra a) :=
  ⟨by simp [encode], by simp [encode], opcode_range _⟩

theorem EncodedOpcode.clrall : EncodedOpcode.Statement .clrall :=
  ⟨by simp [encode], by simp [encode], opcode_range _⟩

theorem EncodedOpcode.setbit (a b : Byte) (e : Bool) : EncodedOpcode.Statement (.setbit a b e) :=
  ⟨by simp [encode], by simp [encode], opcode_range _⟩

theorem EncodedOpcode.setind (e : Bool) : EncodedOpcode.Statement (.setind e) :=
  ⟨by simp [encode], by simp [encode], opcode_range _⟩

theorem EncodedOpcode.rend6 (v : Word32) : EncodedOpcode.Statement (.rend6 v) :=
  ⟨by simp [encode], by simp [encode], opcode_range _⟩

theorem EncodedOpcode.rend4 (v : Word32) : EncodedOpcode.Statement (.rend4 v) :=
  ⟨by simp [encode], by simp [encode], opcode_range _⟩

end Sys2Proof.Laws
end

