-- ==== Sys2Proof/Laws/Step.lean ====
section
/-! SUPPORT. Everything a step can do, said once. -/

namespace Sys2Proof.Machine

theorem runCommand_of_decode {w : CommandWord} {i : Instr} (h : decode w = .ok i) (s : State) :
    runCommand w s = exec i s := by
  simp [runCommand, h]

theorem runCommand_of_error {w : CommandWord} {e : DecodeError} (h : decode w = .error e) (s : State) :
    runCommand w s = .next (illegalCommand w s) := by
  simp [runCommand, h]

theorem step_of_command {s : State} {w : CommandWord} {rest : List Input} (h : s.pending = .command w :: rest) :
    step s = runCommand w { s with pending := rest, index := s.index + 1 } := by
  simp [step, stepInput, State.takeInput, h, runInput]

theorem step_of_reset {s : State} {rest : List Input} (h : s.pending = .reset :: rest) :
    step s = .next (resetInput { s with pending := rest }) := by
  simp [step, stepInput, State.takeInput, h, runInput]

theorem step_of_detach {s : State} {rest : List Input} (h : s.pending = .detach :: rest) :
    step s = .next (detachInput { s with pending := rest }) := by
  simp [step, stepInput, State.takeInput, h, runInput]

theorem step_of_nothing {s : State} (h : s.pending = []) : step s = .next s := by
  simp [step, stepInput, State.takeInput, h]

/-- A step that answers `next t` ran a decoded command, an illegal word, a reset, a detach, or nothing. -/
theorem step_cases {s t : State} (h : step s = .next t) :
    (∃ w rest i, s.pending = .command w :: rest ∧ decode w = .ok i ∧
      exec i { s with pending := rest, index := s.index + 1 } = .next t) ∨
    (∃ w rest e, s.pending = .command w :: rest ∧ decode w = .error e ∧
      t = illegalCommand w { s with pending := rest, index := s.index + 1 }) ∨
    (∃ rest, s.pending = .reset :: rest ∧ t = resetInput { s with pending := rest }) ∨
    (∃ rest, s.pending = .detach :: rest ∧ t = detachInput { s with pending := rest }) ∨
    (s.pending = [] ∧ t = s) := by
  match hp : s.pending with
  | [] =>
    rw [step_of_nothing hp] at h
    exact .inr (.inr (.inr (.inr ⟨rfl, (Host.Outcome.next.inj h).symm⟩)))
  | .command w :: rest =>
    rw [step_of_command hp] at h
    match hd : decode w with
    | .ok i => exact .inl ⟨w, rest, i, rfl, hd, by rwa [runCommand_of_decode hd] at h⟩
    | .error e =>
      rw [runCommand_of_error hd] at h
      exact .inr (.inl ⟨w, rest, e, rfl, hd, (Host.Outcome.next.inj h).symm⟩)
  | .reset :: rest =>
    rw [step_of_reset hp] at h
    exact .inr (.inr (.inl ⟨rest, rfl, (Host.Outcome.next.inj h).symm⟩))
  | .detach :: rest =>
    rw [step_of_detach hp] at h
    exact .inr (.inr (.inr (.inl ⟨rest, rfl, (Host.Outcome.next.inj h).symm⟩)))

end Sys2Proof.Machine
end

