-- ==== Sys2Proof/Tests/Slice0.lean ====
section
/-! SUPPORT. The model's own tests. Expected values come from spec/95_test_vectors.md (the vector's id stands beside
each) or are written out from the named rule; the Glyph ROM of these tests is an arbitrary instance of the OPEN
parameter (R21). The theorems named witness_ show a state and operands that meet a statement's hypotheses. -/

namespace Sys2Proof.Tests

open Sys2Proof.Machine

/-! ### States -/

/-- Parameters with chosen values for what is OPEN. -/
def params (width : Width) (resetWrites detachWrites : Bool) : Params :=
  ⟨width, 3, ⟨0x101, 0x102, 0x103, 0x104⟩, resetWrites, detachWrites, ⟨2, by cases width <;> decide⟩⟩

/-- A ROM with distinct entries, of which entry 3 has its dot bit set and blank is not 0. -/
def rom : Vector Byte 16 :=
  #v[0x20, 0x21, 0x22, 0x33, 0x24, 0x25, 0x26, 0x27, 0x28, 0x29, 0x2A, 0x8B, 0x2C, 0x2D, 0x2E, 0x2F]

/-- An attached display with the buffer given, nothing logged, and these transactions to be answered `fail`. -/
def display (width : Width) (buf : List Byte) (ackFails : List Nat) : State :=
  ⟨params width true false, rom, buf, ⟨true, false, .none, 0⟩, [], [], ackFails, [], 0, []⟩

/-- The six-position display after reset's zeroing, with an empty log. -/
def six : State := display .six [0, 0, 0, 0, 0, 0] []

/-- The four-position display. -/
def four : State := display .four [0, 0, 0, 0] []

/-- What one command answers: buffer, controller view, transactions and responses. -/
def answer (i : Instr) (s : State) : Option (List Byte × Memory × List Tx × List Word32) :=
  match exec i s with
  | .next t => some (t.buf, t.ctrl, t.txlog, t.responses)
  | _ => none

/-- What one command answers: transactions and responses. -/
def traffic (i : Instr) (s : State) : Option (List Tx × List Word32) :=
  (answer i s).map fun r => (r.2.2.1, r.2.2.2)

/-- The state a step leads to. -/
def after (s : State) : Option State :=
  match step s with
  | .next t => some t
  | _ => none

/-- STATUS and buffer after one input. -/
def statusAfter (input : Input) (s : State) : Option (StatusWord × List Tx) :=
  (after { s with pending := [input] }).map fun t => (t.status.word, t.txlog)

/-! ### Decoding: words written out from R60, R62, R63 -/

theorem test_decode_lookup : decode 0x0100C80000000000 = .ok (.lookup 200) := by decide -- VE1
theorem test_decode_read : decode 0x0202000000000000 = .ok (.read 2) := by decide -- VW3
theorem test_decode_wpat : decode 0x0302A50000000000 = .ok (.wpat 2 0xA5) := by decide -- VE2
theorem test_decode_setdig : decode 0x0403070000000000 = .ok (.setdig 3 7) := by decide -- VW4
theorem test_decode_clra : decode 0x05FF000000000000 = .ok (.clra 255) := by decide -- VW11
theorem test_decode_clrall : decode 0x0600000000000000 = .ok .clrall := by decide -- VW9
theorem test_decode_setbit : decode 0x0702048000000000 = .ok (.setbit 2 4 true) := by decide -- VE3
theorem test_decode_setbit_clear : decode 0x0702040000000000 = .ok (.setbit 2 4 false) := by decide -- VI2
theorem test_decode_setind : decode 0x0800008000000000 = .ok (.setind true) := by decide -- VI10
theorem test_decode_rend6 : decode 0x09000000FFFFFF85 = .ok (.rend6 0xFFFFFF85) := by decide -- VE4
theorem test_decode_rend4 : decode 0x0A00000000003039 = .ok (.rend4 12345) := by decide -- VD36

theorem test_reserved_opcodes :
    decode 0 = .error .reservedOpcode ∧ decode 0x0B00000000000000 = .error .reservedOpcode ∧
    decode 0xFF00000000000000 = .error .reservedOpcode := by decide -- VE5, VE6, VE7

/-- One must-be-zero field of each kind, and words at the field boundaries (VE8 to VE14). -/
theorem test_must_be_zero :
    decode 0x0601000000000000 = .error .illegalForm ∧ decode 0x0702048100000000 = .error .illegalForm ∧
    decode 0x0200008000000000 = .error .illegalForm ∧ decode 0x0800018000000000 = .error .illegalForm ∧
    decode 0x0901000000000001 = .error .illegalForm ∧ decode 0x0101050000000000 = .error .illegalForm ∧
    decode 0x0100050000000001 = .error .illegalForm ∧ decode 0x0A00004000000000 = .error .illegalForm := by decide

/-- The table's numbering: one word, bit 0 its least significant bit. -/
theorem test_decodeTableWord :
    decodeTableWord 64 0x0302A50000000000 = some (.wpat 2 0xA5) ∧ decodeTableWord 64 0x0B00000000000000 = none := by
  decide

theorem test_encode :
    encode (.setbit 2 4 true) = 0x0702048000000000 ∧ encode (.rend4 12345) = 0x0A00000000003039 := by decide -- VI1, S3

/-- The table's check on words: each row takes its own form. -/
theorem test_wellFormed_words :
    wellFormedWord 0x0100C80000000000 = true ∧ wellFormedWord 0x0702FF8000000000 = true ∧
    wellFormedWord 0x09000000FFFFFFFF = true := by decide

/-- The smoke test of the check: an ill-formed word for the opcode and for each must-be-zero field A, B, E, Z, V. -/
theorem test_ill_formed_words :
    wellFormedWord 0x0B00000000000000 = false ∧ wellFormedWord 0x0601000000000000 = false ∧
    wellFormedWord 0x0800018000000000 = false ∧ wellFormedWord 0x0200008000000000 = false ∧
    wellFormedWord 0x0702048100000000 = false ∧ wellFormedWord 0x0100050000000001 = false := by decide

/-! ### Commands -/

theorem test_lookup_compact_zero : traffic (.lookup 12) six = some ([], [0x402C0001]) := by decide -- VG5
theorem test_lookup_coerces : traffic (.lookup 16) six = some ([], [0x408B0001]) := by decide -- VG3

theorem test_read : traffic (.read 2) (display .six [0, 0, 0xA5, 0, 0, 0] []) = some ([], [0x40A50001]) := by
  decide -- VW3
theorem test_read_past_end : traffic (.read 6) six = some ([], [0x8000060F]) := by decide -- VW10

theorem test_wpat :
    answer (.wpat 2 0xA5) six = some ([0, 0, 0xA5, 0, 0, 0], [(2, 0xA5)], [.wr 2 0xA5], [0x00000001]) := by
  decide -- VW2
theorem test_wpat_unchanged_still_writes : traffic (.wpat 0 0) six = some ([.wr 0 0], [1]) := by decide -- VW8

theorem test_setdig : traffic (.setdig 3 7) six = some ([.wr 3 0x27], [1]) := by decide -- VW4
theorem test_setdig_address_first : traffic (.setdig 6 200) six = some ([], [0x8000060F]) := by decide -- VW12

theorem test_clra :
    answer (.clra 4) (display .six [1, 2, 3, 4, 0xFF, 6] []) =
      some ([1, 2, 3, 4, 0, 6], [(4, 0)], [.wr 4 0], [1]) := by decide -- VW7
theorem test_clra_past_end : traffic (.clra 255) six = some ([], [0x8000FF0F]) := by decide -- VW11

theorem test_clrall_narrow :
    answer .clrall (display .four [1, 2, 3, 4] []) =
      some ([0, 0, 0, 0], [(0, 0), (1, 0), (2, 0), (3, 0)], [.wr 0 0, .wr 1 0, .wr 2 0, .wr 3 0], [1]) := by
  decide -- VW14
theorem test_clrall_transport_failure :
    (answer .clrall (display .six [1, 2, 3, 4, 5, 6] [2])).map (fun r => (r.1, r.2.2)) =
      some ([0, 0, 0, 4, 5, 6], [.wr 0 0, .wr 1 0, .wr 2 0], [0x80000217]) := by decide -- VW16

theorem test_setbit_clear :
    traffic (.setbit 5 0 false) (display .six [0, 0, 0, 0, 0, 0xFF] []) = some ([.wr 5 0xFE], [1]) := by decide -- VI4
theorem test_setbit_faults :
    traffic (.setbit 5 8 true) six = some ([], [0x80000813]) ∧
    traffic (.setbit 6 8 true) six = some ([], [0x8000060F]) := by decide -- VI8, VI9

theorem test_setind :
    (answer (.setind false) (display .six [0xFF, 0x10, 0x00, 0xEF, 0x3C, 0xB5] [])).map (fun r => r.1) =
      some [0xEF, 0x00, 0x00, 0xEF, 0x2C, 0xA5] := by decide -- VI11
theorem test_setind_transport_failure :
    (answer (.setind true) (display .six [0, 0, 0, 0, 0, 0] [1])).map (fun r => (r.1, r.2.2)) =
      some ([0x10, 0x10, 0, 0, 0, 0], [.wr 0 0x10, .wr 1 0x10], [0x80000117]) := by decide -- VI13

theorem test_rend6_order :
    traffic (.rend6 123) six =
      some ([.wr 5 0x33, .wr 4 0x22, .wr 3 0x21, .wr 2 0x20, .wr 1 0x20, .wr 0 0x20], [1]) := by decide -- VD31
theorem test_rend6_data :
    traffic (.rend6 0) six =
      some ([.wr 0 0x8B, .wr 1 0x2D, .wr 2 0x2E, .wr 3 0x2F, .wr 4 0x2E, .wr 5 0x8B], [1]) := by decide -- VD30

theorem test_rend4_keeps_outer :
    (answer (.rend4 1234) (display .six [0xAA, 0, 0, 0, 0, 0x55] [])).map (fun r => (r.1, r.2.2)) =
      some ([0xAA, 0x21, 0x22, 0x33, 0x24, 0x55], [.wr 4 0x24, .wr 3 0x33, .wr 2 0x22, .wr 1 0x21], [1]) := by
  decide -- VD37
theorem test_rend4_narrow : traffic (.rend4 5) four = some ([], [0x8000040F]) := by decide -- VD40

/-- VD13, VD14, VD27, VD28. -/
theorem test_digits_negative :
    digits6 (-1000000) = [-10, 0, 0, 0, 0, 0] ∧ digits6 (-25600000) = [-256, 0, 0, 0, 0, 0] ∧
    digits4 (-10000) = [-10, 0, 0, 0] ∧ digits4 (-2147483648) = [-2147483, -6, -4, -8] := by decide

/-- VD6, VD8, VD20, VD24. -/
theorem test_digits :
    digits6 654321 = [6, 5, 4, 3, 2, 1] ∧ digits6 1000000 = [9, 9, 9, 9, 9, 9] ∧
    digits4 0 = [0, 0, 0, 0] ∧ digits4 10000 = [9, 9, 9, 9] := by decide

/-! ### Steps: lifecycle and faults -/

/-- The power-on machine of these tests. -/
def unattached : State := { six with status := ⟨false, false, .none, 0⟩, buf := [7, 7, 7, 7, 7, 7] }

theorem test_inactive :
    statusAfter (.command 0x0200000000000000) unattached = some (0x0204 ||| 0x2, []) ∧
    statusAfter (.command 0x0B00000000000000) unattached = some (0x0B06, []) ∧
    statusAfter (.command 0x0100050000000001) unattached = some (0x010A, []) := by decide -- VF1, VF2, VF3

theorem test_lookup_inactive : traffic (.lookup 5) unattached = some ([], [0x40250000]) := by decide -- VG6

theorem test_refused :
    traffic (.wpat 1 0x3C) { six with status := ⟨true, true, .addr, 6⟩ } = some ([], [0xC000060F]) := by decide -- VF5

theorem test_reset :
    statusAfter .reset { unattached with status := ⟨true, true, .addr, 6⟩ } =
      some (0x0001, [.cmd 0x101, .cmd 0x102, .cmd 0x103, .cmd 0x104,
        .wr 0 0, .wr 1 0, .wr 2 0, .wr 3 0, .wr 4 0, .wr 5 0]) := by decide -- VF7

theorem test_reset_failures :
    statusAfter .reset { unattached with ackFails := [2] } =
      some (0xFF16, [.cmd 0x101, .cmd 0x102, .cmd 0x103]) ∧
    (statusAfter .reset { unattached with ackFails := [7] }).map (fun r => r.1) = some 0x0316 := by decide -- VR3, VR4

theorem test_detach :
    statusAfter .detach { six with status := ⟨true, true, .addr, 6⟩, par := params .six true true } =
      some (0x060E, []) ∧
    (after { six with pending := [.detach], par := params .six true true }).map (fun t => (t.status.word, t.txlog.length))
      = some (0x0000, 6) := by decide -- VR9, VR6

/-- The first instruction after reset runs, whatever the OPEN parameters are. -/
theorem test_first_after_reset :
    (after (State.reset.withFetchWord 64 0x0302A50000000000)).map (fun t => (t.buf, t.index, t.responses)) =
      some ([0, 0, 0xA5, 0, 0, 0], 1, [0x00000001]) := by rfl

/-- The facade's expansion and the assembler's text (R66, R68). -/
theorem test_assembler :
    expandPseudo six.par (.showsecondary 12345) = [.rend4 12345, .setdig 0 11, .setdig 5 11, .setbit 2 4 false] ∧
    assemble (expandPseudo six.par (.showprimary 123)) = [0x090000000000007B, 0x0702048000000000] ∧
    assemblyText (.rend6 0xFFFFFF85) = "rend6 -123" ∧ assemblyText (.setbit 2 4 true) = "setbit 2, 4, 1" := by
  decide -- S3, S2

/-! ### Witnesses: a state and operands that meet the hypotheses of each statement -/

/-- A state that meets the invariants with something written, and a command to run next. -/
def settled : State :=
  { six with
    buf := [0xA5, 0, 0, 0, 0, 0]
    ctrl := [(0, 0xA5)]
    txlog := [.cmd 0x101, .cmd 0x102, .cmd 0x103, .cmd 0x104, .wr 0 0xA5]
    pending := [.command 0x0302A50000000000] }

theorem settled_read? (a : Nat) : Memory.read? settled.ctrl a = if a = 0 then some 0xA5 else none := rfl

theorem settled_inv : settled.Inv := by
  refine ⟨by decide, by decide, fun a => ?_, fun a p h => ?_, fun op h => ?_, ?_, rfl⟩
  · rw [settled_read?]
    constructor
    · intro h
      split at h
      · exact ⟨0xA5, by simp [settled, *]⟩
      · simp at h
    · rintro ⟨p, h⟩
      have : a = 0 := by simp [settled] at h; exact h.1
      simp [this]
  · have : a = 0 := by simp [settled] at h; exact h.1
    rw [this]
    decide
  · simp [settled] at h
    rcases h with rfl | rfl | rfl | rfl <;> decide
  · simp [State.StatusLegal, settled, six, display]

theorem settled_shadow : settled.Shadow := by
  rintro - a - ⟨p, h⟩
  have h' : Tx.wr a p ∈ [Tx.wr 0 0xA5] := h
  simp at h'
  rw [h'.1]
  rfl

/-- A word of each kind the statement speaks of: it decodes, and it selects a row. -/
theorem witness_DecoderAgreesWithOpcodeTable :
    decode 0x0702048000000000 = .ok (.setbit 2 4 true) ∧
    (∃ r ∈ opcodeTable, r.selects 0x0702048000000000 = true) := by decide
theorem witness_EncodeDecodeRoundTrip : decode 0x0302A50000000000 = .ok (.wpat 2 0xA5) := by decide
theorem witness_StepRunsDecodedCommand :
    settled.pending = .command 0x0302A50000000000 :: [] ∧ decode 0x0302A50000000000 = .ok (.wpat 2 0xA5) := by decide
theorem witness_EveryWordSelectsARowOrRaisesIllegal :
    settled.pending = .command 0x0302A50000000000 :: [] ∧ settled.Ready ∧
    { settled with pending := [.command 0] }.pending = .command 0 :: [] := by decide
theorem witness_InactiveMachineAnswersInactiveBeforeIllegal :
    { unattached with pending := [.command 0x0B00000000000000] }.pending = [.command 0x0B00000000000000] ∧
    unattached.status.faulted = false ∧ unattached.status.active = false ∧ fieldOp 0x0B00000000000000 ≠ 0x01 ∧
    fieldOp 0x0100050000000001 = 0x01 ∧ wellFormedWord 0x0100050000000001 = false := by decide

/-- A faulted machine with a LOOKUP presented. -/
def faulted : State := { six with status := ⟨true, true, .addr, 6⟩, pending := [.command 0x0100050000000000] }

theorem witness_FaultedMachineRefusesEveryWord :
    faulted.pending = .command 0x0100050000000000 :: [] ∧ faulted.status.faulted = true := by decide
theorem witness_OnlyResetLeavesTheFaultedState :
    (after faulted).isSome ∧ faulted.status.faulted = true ∧ (∀ rest, faulted.pending ≠ .reset :: rest) :=
  ⟨rfl, rfl, fun rest h => by simp [faulted] at h⟩
/-- FacadeExpansionsAreAccepted. -/
theorem witness_FacadeExpansionsAreAccepted :
    six.par.width = .six ∧ .setbit 2 4 true ∈ expandPseudo six.par (.showprimary 1) := by decide
theorem witness_NothingPresentedNothingHappens : six.pending = [] := rfl
/-- A command that writes, one refused, one that raises a fault, one that answers data, a reset and a detach. -/
theorem witness_EveryCommandAnswersOnce :
    (after settled).isSome ∧ (after faulted).isSome ∧
    (after { six with pending := [.command 0] }).isSome ∧
    (after { six with pending := [.command 0x0205000000000000] }).isSome ∧
    (after { six with pending := [.reset] }).isSome ∧
    (after { six with pending := [.detach] }).isSome := by decide
theorem witness_LookupReturnsTheFixedTableValue :
    six.status.faulted = false ∧ (15 : Byte).toNat ≤ 15 ∧ ¬(16 : Byte).toNat ≤ 15 := by decide
theorem witness_ReadReturnsTheShadowPattern :
    (5 : Byte).toNat < six.buf.length ∧ six.Ready ∧ six.BufSized ∧ (3 : Byte).toNat < four.buf.length ∧ four.BufSized := by
  decide
/-- WpatWritesOnePattern, SetdigWritesOneGlyph, ClraWritesZero: the last address of both displays. -/
theorem witness_single_writes :
    six.Ready ∧ six.BufSized ∧ (5 : Byte).toNat < six.width ∧ six.AcksOk 1 ∧
    four.Ready ∧ four.BufSized ∧ (3 : Byte).toNat < four.width ∧ four.AcksOk 1 := by decide
/-- ClrallClearsEveryAddressAscending and SetindEditsEveryDotAscending: both displays. -/
theorem witness_whole_display_writes :
    six.Ready ∧ six.BufSized ∧ six.AcksOk six.width ∧ four.Ready ∧ four.BufSized ∧ four.AcksOk four.width := by decide
theorem witness_SetbitEditsOneBit :
    six.Ready ∧ six.BufSized ∧ (5 : Byte).toNat < six.width ∧ (7 : Byte).toNat < 8 ∧ six.AcksOk 1 := by decide
theorem witness_SetBitFnEditsExactlyOneBit : 7 < 8 := by decide
/-- Rend6WritesSixGlyphsInOrder and Rend4WritesFourMiddleGlyphs: a zero and a negative value. -/
theorem witness_renderers :
    six.Ready ∧ six.BufSized ∧ six.par.width = .six ∧ six.AcksOk 6 ∧ six.AcksOk 4 ∧
    (0 : Word32).toInt = 0 ∧ (0xFFFFFF85 : Word32).toInt = -123 := by decide
/-- Values at the ends of the range, and a ROM that tells the digits apart. -/
theorem witness_RadioReadbackDeterminesTheValue :
    six.Ready ∧ six.BufSized ∧ six.par.width = .six ∧ six.AcksOk 6 ∧
    1 ≤ (1 : Word32).toInt ∧ (999999 : Word32).toInt ≤ 999999 ∧
    (∀ i j : Fin 16, (i : Nat) < 10 → (j : Nat) < 10 → six.rom[i] = six.rom[j] → i = j) ∧
    (traffic (.rend6 1) six).isSome := by decide
theorem witness_SaturatedRendersAreIdentical :
    999999 ≤ (1000000 : Word32).toInt ∧ 9999 ≤ (10000 : Word32).toInt := by decide
/-- GlyphCoercesEveryCodeOutsideRange: the codes next to the range on both sides. -/
theorem witness_GlyphCoercesEveryCodeOutsideRange : (-1 : Int) < 0 ∧ (15 : Int) < 16 := by decide
/-- Digits6DecomposesEveryValue, Digits4DecomposesEveryValue and NegativeValuesShowBlanksAndZeros: each clause at its
boundary. -/
theorem witness_Digits :
    (1 : Int) ≠ 0 ∧ (1 : Int) = (if (1 : Int) > 999999 then 999999 else 1) ∧ (999999 : Int) < 1000000 ∧
    (0 : Int) = (if (0 : Int) > 9999 then 9999 else 0) ∧ (9999 : Int) < 10000 ∧ (-1 : Int) < 0 := by decide
theorem witness_DotToggleClearsTheDot :
    six.Ready ∧ six.BufSized ∧ (5 : Byte).toNat < six.width ∧ six.AcksOk 2 := by decide
theorem witness_AddressPastTheDisplayRaisesAddr :
    six.Ready ∧ six.width ≤ (6 : Byte).toNat ∧ four.Ready ∧ four.width ≤ (4 : Byte).toNat := by decide
theorem witness_BitIndexPastSevenRaisesBitIdx :
    six.Ready ∧ (5 : Byte).toNat < six.width ∧ 8 ≤ (8 : Byte).toNat ∧ 8 ≤ (255 : Byte).toNat := by decide
theorem witness_RenderersFaultOnTheNarrowDisplay : four.Ready ∧ four.par.width = .four := by decide

/-- The display whose third transaction fails. -/
def thirdFails : State := display .six [1, 2, 3, 4, 5, 6] [2]

/-- The third write of REND6, and the only write of WPAT. -/
theorem witness_TransportFailureIsImpreciseWithinItsCommand :
    2 < (commandWrites (.rend6 654321) thirdFails).length ∧ thirdFails.Ready ∧ thirdFails.BufSized ∧
    6 ≤ thirdFails.width ∧ thirdFails.FailsAfter 2 ∧
    0 < (commandWrites (.wpat 5 1) (display .six [1, 2, 3, 4, 5, 6] [0])).length ∧
    (display .six [1, 2, 3, 4, 5, 6] [0]).FailsAfter 0 := by decide

/-- A reset presented to a faulted machine, with and without the clearing writes. -/
theorem witness_ResetReinitialisesFromEveryState :
    { faulted with pending := [.reset] }.pending = .reset :: [] ∧
    faulted.AcksOk (4 + if faulted.par.resetClearWrites then faulted.width else 0) ∧
    { faulted with par := params .six false false }.AcksOk 4 := by decide
/-- The last startup code and the last zero write fail. -/
theorem witness_TransportFailureEndsTheReset :
    { six with pending := [.reset], ackFails := [3] }.FailsAfter 3 ∧
    six.par.resetClearWrites = true ∧ 5 < six.width ∧ { six with ackFails := [9] }.FailsAfter (4 + 5) := by decide

/-- A display that clears its controller on detach. -/
def clearing : State := { six with par := params .six true true, pending := [.detach] }

theorem witness_DetachZeroesTheBufferAndKeepsFaults :
    clearing.pending = .detach :: [] ∧ unattached.status.active = false ∧
    (six.status.active = true ∧ six.par.detachClearWrites = false) ∧
    (faulted.status.active = true ∧ faulted.status.faulted = true) ∧
    (clearing.Ready ∧ clearing.par.detachClearWrites = true ∧ clearing.AcksOk clearing.width) ∧
    (5 < clearing.width ∧ { clearing with ackFails := [5] }.FailsAfter 5) := by decide

/-- EveryStepKeepsTheInvariant, EveryStepKeepsTheShadowInvariant, RomAndParametersNeverChange and
TransactionLogOnlyGrows: a state with both invariants that steps. -/
theorem witness_invariants :
    settled.Inv ∧ settled.BufSized ∧ settled.Shadow ∧ settled.Ready ∧ (∃ t, step settled = .next t) :=
  ⟨settled_inv, by decide, settled_shadow, by decide, _, rfl⟩

/-- A detach presented to an attached, unfaulted machine that writes nothing at detach and shows a pattern. -/
theorem witness_DetachCanLeaveTheShadowBehind :
    State.Shadow { settled with pending := [.detach] } ∧ settled.Ready ∧ settled.par.detachClearWrites = false ∧
    0 < settled.width ∧ writtenSinceReset settled.txlog 0 ∧ settled.bufAt 0 ≠ 0 :=
  ⟨settled_shadow, by decide, rfl, by decide, ⟨0xA5, by decide⟩, by decide⟩

/-- A step that logs one write, and an address it does not write. -/
theorem witness_ControllerChangesOnlyWhereLogged :
    (after settled).map (fun t => t.txlog) = some (settled.txlog ++ [.wr 2 0xA5]) ∧
    ∀ p, Tx.wr 1 p ∉ [Tx.wr 2 0xA5] :=
  ⟨by decide, fun p h => by simp at h⟩

theorem witness_ControllerViewIsCanonical :
    Memory.wf settled.ctrl ∧ Memory.wf (Memory.write (Memory.write [] 3 1) 1 2) ∧
    Memory.write (Memory.write [] 3 1) 1 2 = [(1, 2), (3, 1)] := by decide

end Sys2Proof.Tests
end

section
/-! SUPPORT. What no input touches (spec/10_state.md R20, R21, R29): every operation, command, reset and detach leaves
the parameters, the Glyph ROM, the input ports and the command index as they were, and a step changes of these only the
port it takes its input from and the index. -/

namespace Sys2Proof.Machine

/-! ### The relation, and the operations it holds across -/

theorem Untouched.refl (s : State) : Untouched s s := ⟨rfl, rfl, rfl, rfl, rfl⟩

theorem Untouched.trans {s t u : State} (hst : Untouched s t) (htu : Untouched t u) : Untouched s u := by
  obtain ⟨hpar, hrom, hack, hpend, hidx⟩ := hst
  obtain ⟨hpar', hrom', hack', hpend', hidx'⟩ := htu
  exact ⟨hpar'.trans hpar, hrom'.trans hrom, hack'.trans hack, hpend'.trans hpend, hidx'.trans hidx⟩

theorem respond_untouched (s : State) (k : Kind) (d : Byte) : Untouched s (s.respond k d) :=
  ⟨rfl, rfl, rfl, rfl, rfl⟩

theorem raiseFault_untouched (s : State) (c : Cause) (x : Byte) : Untouched s (s.raiseFault c x) :=
  ⟨rfl, rfl, rfl, rfl, rfl⟩

theorem setBuf_untouched (s : State) (a : Nat) (p : Byte) : Untouched s (s.setBuf a p) := ⟨rfl, rfl, rfl, rfl, rfl⟩

theorem zeroBuf_untouched (s : State) : Untouched s s.zeroBuf := ⟨rfl, rfl, rfl, rfl, rfl⟩

theorem clearStatus_untouched (s : State) : Untouched s s.clearStatus := ⟨rfl, rfl, rfl, rfl, rfl⟩

theorem setActive_untouched (s : State) (b : Bool) : Untouched s (s.setActive b) := ⟨rfl, rfl, rfl, rfl, rfl⟩

theorem unspecifiedBuf_untouched (s : State) : Untouched s s.unspecifiedBuf := ⟨rfl, rfl, rfl, rfl, rfl⟩

theorem latched_untouched (r : Raised) : Untouched r.state r.latched := ⟨rfl, rfl, rfl, rfl, rfl⟩

/-! ### Transactions and sequences, gone through or stopped -/

theorem ctrlWrite_untouched (a : Nat) (p : Byte) (s : State) : Untouched s (endState (ctrlWrite a p s)) := by
  rcases s.ack_cases with h | h
  · rw [ctrlWrite_of_ok h]
    exact ⟨rfl, rfl, rfl, rfl, rfl⟩
  · rw [ctrlWrite_of_fail h]
    exact ⟨rfl, rfl, rfl, rfl, rfl⟩

theorem ctrlCmd_untouched (op : Nat) (s : State) : Untouched s (endState (ctrlCmd op s)) := by
  rcases s.ack_cases with h | h
  · rw [ctrlCmd_of_ok h]
    exact ⟨rfl, rfl, rfl, rfl, rfl⟩
  · rw [ctrlCmd_of_fail h]
    exact ⟨rfl, rfl, rfl, rfl, rfl⟩

theorem segWrite_untouched (a : Nat) (p : Byte) (s : State) : Untouched s (endState (segWrite a p s)) :=
  (setBuf_untouched s a p).trans (ctrlWrite_untouched a p _)

theorem forEach_untouched {α : Type} {f : α → State → Except Raised State}
    (hf : ∀ x s, Untouched s (endState (f x s))) (xs : List α) (s : State) :
    Untouched s (endState (forEach f xs s)) := by
  obtain ⟨hok, herr⟩ := forEach_keeps (f := f) (P := Untouched s) (Q := fun r => Untouched s r.state) (xs := xs)
    (fun x _ t u ht hu => ht.trans (by simpa [hu, endState] using hf x t))
    (fun x _ t r ht hr => ht.trans (by simpa [hr, endState] using hf x t)) (Untouched.refl s)
  cases h : forEach f xs s with
  | ok t => exact hok t h
  | error r => exact herr r h

theorem writeAll_untouched (ws : List (Nat × Byte)) (s : State) : Untouched s (endState (writeAll ws s)) :=
  forEach_untouched (fun w : Nat × Byte => segWrite_untouched w.1 w.2) ws s

theorem clearController_untouched (s : State) : Untouched s (endState (clearController s)) :=
  forEach_untouched (fun a => ctrlWrite_untouched a 0) _ s

theorem finish_untouched {s : State} {r : Except Raised State} (h : Untouched s (endState r)) :
    Untouched s (finish r) := by
  cases r with
  | ok t => exact h.trans (respond_untouched t .ok 0)
  | error r => exact h.trans (raiseFault_untouched r.state r.cause r.info)

/-! ### Commands and the two lifecycle inputs -/

theorem exec_untouched {i : Instr} {s t : State} (h : exec i s = .next t) : Untouched s t := by
  have of_eq {u : State} (he : exec i s = .next u) (hu : Untouched s u) : Untouched s t :=
    Host.Outcome.next.inj (he.symm.trans h) ▸ hu
  rcases exec_cases i s with ⟨-, he⟩ | ⟨-, -, -, he⟩ | ⟨-, -, d, he⟩ | ⟨-, x, -, he⟩ | ⟨-, x, -, he⟩ | ⟨-, -, -, he⟩
  · exact of_eq he (respond_untouched s .refused 0)
  · exact of_eq he (raiseFault_untouched s .inactive i.opcode)
  · exact of_eq he (respond_untouched s .data d)
  · exact of_eq he (raiseFault_untouched s .addr x)
  · exact of_eq he (raiseFault_untouched s .bitIdx x)
  · exact of_eq he (finish_untouched (writeAll_untouched (commandWrites i s) s))

theorem illegalCommand_untouched (w : CommandWord) (s : State) : Untouched s (illegalCommand w s) := by
  unfold illegalCommand
  rcases commandChecks_cases (fieldOp w) (fun t => t.raiseFault .illegal (fieldOp w)) s with
    ⟨-, he⟩ | ⟨-, -, -, he⟩ | ⟨-, -, he⟩ <;> rw [he]
  · exact respond_untouched ..
  · exact raiseFault_untouched ..
  · exact raiseFault_untouched ..

theorem resetInput_untouched (s : State) : Untouched s (resetInput s) := by
  have hcodes : Untouched s (endState (forEach ctrlCmd s.par.initOpcodes.inOrder s.clearStatus)) :=
    (clearStatus_untouched s).trans (forEach_untouched ctrlCmd_untouched _ _)
  have hclear (u : State) :
      Untouched u (endState (if s.par.resetClearWrites then clearController u else .ok u)) := by
    split
    · exact clearController_untouched u
    · exact Untouched.refl u
  unfold resetInput
  split
  next r h =>
    rw [h] at hcodes
    exact (hcodes.trans (latched_untouched r)).trans (unspecifiedBuf_untouched r.latched)
  next s1 h =>
    rw [h] at hcodes
    have hzero := (hcodes.trans (zeroBuf_untouched s1)).trans (hclear s1.zeroBuf)
    split
    next r h' =>
      rw [h'] at hzero
      exact hzero.trans (latched_untouched r)
    next s2 h' =>
      rw [h'] at hzero
      exact hzero.trans (setActive_untouched s2 true)

theorem detachInput_untouched (s : State) : Untouched s (detachInput s) := by
  have hzero : Untouched s (s.setActive false).zeroBuf :=
    (setActive_untouched s false).trans (zeroBuf_untouched _)
  have hclear := hzero.trans (clearController_untouched _)
  unfold detachInput
  split
  · exact Untouched.refl s
  · dsimp only
    split
    · split
      next r h =>
        rw [h] at hclear
        exact hclear.trans (latched_untouched r)
      next s2 h =>
        rw [h] at hclear
        exact hclear
    · exact hzero

/-! ### The step (R21) -/

/-- Settles O44: by the cases of a step, each of which leaves these fields untouched once the input is taken. -/
theorem romAndParametersNeverChange : Obligations.RomAndParametersNeverChange := by
  unfold Obligations.RomAndParametersNeverChange
  intro s t h
  have of_taken {s' : State} (hu : Untouched s' t) (hpar : s'.par = s.par) (hrom : s'.rom = s.rom)
      (hack : s'.ackFails = s.ackFails) : t.rom = s.rom ∧ t.par = s.par ∧ t.ackFails = s.ackFails := by
    obtain ⟨hpar', hrom', hack', -⟩ := hu
    exact ⟨hrom'.trans hrom, hpar'.trans hpar, hack'.trans hack⟩
  rcases step_cases h with ⟨w, rest, i, -, -, he⟩ | ⟨w, rest, e, -, -, rfl⟩ | ⟨rest, -, rfl⟩ | ⟨rest, -, rfl⟩ | ⟨-, rfl⟩
  · exact of_taken (exec_untouched he) rfl rfl rfl
  · exact of_taken (illegalCommand_untouched w _) rfl rfl rfl
  · exact of_taken (resetInput_untouched _) rfl rfl rfl
  · exact of_taken (detachInput_untouched _) rfl rfl rfl
  · exact ⟨rfl, rfl, rfl⟩

end Sys2Proof.Machine
end

section
/-! SUPPORT. The facade expansions on a display of six positions (spec/30_encoding.md R68). -/

namespace Sys2Proof.Machine

/-- The address field holds every position of either display, so none is truncated. -/
theorem primaryDot_toNat (par : Params) : (primaryDot par).toNat = par.primaryDotAddr := by
  have hpos : par.width.positions ≤ 6 := by cases par.width <;> decide
  have hlt := par.primaryDotAddr.isLt
  rw [primaryDot, BitVec.toNat_ofNat, Nat.mod_eq_of_lt (by omega)]

/-- The indicator edit of a facade expansion is in range on either display. -/
theorem accepted_setbit_primaryDot (s : State) (e : Bool) : accepted (.setbit (primaryDot s.par) 4 e) s :=
  ⟨by rw [primaryDot_toNat]; exact s.par.primaryDotAddr.isLt, by decide⟩

theorem State.width_of_six {s : State} (h : s.par.width = .six) : s.width = 6 := by
  rw [State.width, h, Width.positions]

theorem accepted_setdig_of_six {s : State} (h : s.par.width = .six) {a : Byte} (ha : a.toNat < 6) (c : Byte) :
    accepted (.setdig a c) s := by
  rwa [accepted, State.width_of_six h]

theorem accepted_rend6_of_six {s : State} (h : s.par.width = .six) (v : Word32) : accepted (.rend6 v) s := by
  rw [accepted, State.width_of_six h]

theorem accepted_rend4_of_six {s : State} (h : s.par.width = .six) (v : Word32) : accepted (.rend4 v) s := by
  rw [accepted, State.width_of_six h]
  decide

/-- Settles O49: every expansion is made of commands whose operands the lemmas above place in range. -/
theorem facadeExpansionsAreAccepted : Obligations.FacadeExpansionsAreAccepted := by
  unfold Obligations.FacadeExpansionsAreAccepted
  intro s v hsix
  refine ⟨primaryDot_toNat s.par, ?_⟩
  have hdig {a : Byte} (ha : a.toNat < 6) (c : Byte) := accepted_setdig_of_six hsix ha c
  simp only [List.forall_mem_cons, List.not_mem_nil, IsEmpty.forall_iff, implies_true, and_true, expandPseudo]
  refine ⟨?showprimary, ?showsecondary, ?showtestOn, ?showtestOff⟩
  case showprimary => exact ⟨accepted_rend6_of_six hsix v, accepted_setbit_primaryDot s _⟩
  case showsecondary =>
    exact ⟨accepted_rend4_of_six hsix v, hdig (by decide) 11, hdig (by decide) 11, accepted_setbit_primaryDot s false⟩
  case showtestOn =>
    exact ⟨hdig (by decide) 8, hdig (by decide) 8, hdig (by decide) 8, hdig (by decide) 8, hdig (by decide) 8,
      hdig (by decide) 8, trivial⟩
  case showtestOff => exact trivial

end Sys2Proof.Machine
end

section
/-! SUPPORT. The outcomes of the two lifecycle inputs, said once (spec/70_reset_and_hazards.md R170, R172, R174): a
reset stops at a startup code, stops at a zero write, or completes; a detach does nothing, completes, or stops at a zero
write. -/

namespace Sys2Proof.Machine

/-! ### The transaction sequences, as updates of the state -/

/-- The state with the first `n` startup codes sent. -/
def State.started (s : State) (n : Nat) : State :=
  { s with txlog := s.txlog ++ (s.par.initOpcodes.inOrder.take n).map Tx.cmd }

/-- The state with an acknowledged zero write to each of `as`, in the controller only. -/
def State.swept (s : State) (as : List Nat) : State :=
  { s with txlog := s.txlog ++ as.map (fun a => Tx.wr a 0), ctrl := zeroed s.ctrl as }

/-- The state with the zero writes below `k` acknowledged and the one to `k` answered `fail`. -/
def State.sweptUntil (s : State) (k : Nat) : State :=
  { s with
    txlog := s.txlog ++ (List.range (k + 1)).map (fun a => Tx.wr a 0)
    ctrl := Memory.write (zeroed s.ctrl (List.range k)) k (Config.ctrlAfterFail (s.txlog.length + k)) }

@[simp] theorem State.started_width (s : State) (n : Nat) : (s.started n).width = s.width := rfl

@[simp] theorem State.swept_txlog (s : State) (as : List Nat) :
    (s.swept as).txlog = s.txlog ++ as.map (fun a => Tx.wr a 0) := rfl
@[simp] theorem State.swept_ctrl (s : State) (as : List Nat) : (s.swept as).ctrl = zeroed s.ctrl as := rfl
@[simp] theorem State.swept_buf (s : State) (as : List Nat) : (s.swept as).buf = s.buf := rfl
@[simp] theorem State.sweptUntil_buf (s : State) (k : Nat) : (s.sweptUntil k).buf = s.buf := rfl

theorem State.swept_nil (s : State) : s.swept [] = s := by
  simp [State.swept, zeroed]

theorem State.AcksOk.mono {s : State} {m n : Nat} (h : s.AcksOk n) (hmn : m ≤ n) : s.AcksOk m :=
  fun k hk => h k (Nat.lt_of_lt_of_le hk hmn)

/-- The acknowledgements that are left once `m` transactions have been made. -/
theorem State.AcksOk.drop {s t : State} {m n : Nat} (h : s.AcksOk (m + n))
    (hl : t.txlog.length = s.txlog.length + m) (ha : t.ackFails = s.ackFails) : t.AcksOk n := by
  intro k hk
  rw [hl, ha, Nat.add_assoc]
  exact h (m + k) (by omega)

theorem State.FailsAfter.drop {s t : State} {m n : Nat} (h : s.FailsAfter (m + n))
    (hl : t.txlog.length = s.txlog.length + m) (ha : t.ackFails = s.ackFails) : t.FailsAfter n := by
  refine ⟨h.1.drop hl ha, ?_⟩
  rw [hl, ha, Nat.add_assoc]
  exact h.2

theorem clearController_of_acks {s : State} (h : s.AcksOk s.width) :
    clearController s = .ok (s.swept (List.range s.width)) :=
  forEach_ctrlWrite_ok (by rwa [List.length_range])

theorem clearController_of_fails {s : State} {k : Nat} (hk : k < s.width) (h : s.FailsAfter k) :
    clearController s =
      .error { cause := .transport, info := BitVec.ofNat 8 k, state := s.sweptUntil k } := by
  rw [clearController, forEach_ctrlWrite_fail (by rwa [List.length_range]) h]
  simp [State.sweptUntil, List.take_range, Nat.min_eq_left hk, Nat.min_eq_left (Nat.le_of_lt hk)]

/-! ### Reset -/

/-- The addresses a reset writes zero to (R170). -/
def State.resetClears (s : State) : List Nat := if s.par.resetClearWrites then List.range s.width else []

/-- How a reset goes on once its startup codes are acknowledged: the zeroed machine, its controller not yet written. -/
def State.restarted (s : State) : State := (s.clearStatus.started 4).zeroBuf

@[simp] theorem State.restarted_buf (s : State) : s.restarted.buf = List.replicate s.width 0 := rfl
@[simp] theorem State.restarted_txlog (s : State) :
    s.restarted.txlog = s.txlog ++ s.par.initOpcodes.inOrder.map Tx.cmd := rfl

theorem State.restarted_txlog_length (s : State) : s.restarted.txlog.length = s.txlog.length + 4 := by
  simp [InitOpcodes.inOrder_length]

theorem State.mem_resetClears {s : State} {a : Nat} :
    a ∈ s.resetClears ↔ s.par.resetClearWrites = true ∧ a < s.width := by
  unfold State.resetClears
  split <;> simp [*]

theorem State.resetClears_length (s : State) :
    s.resetClears.length = if s.par.resetClearWrites then s.width else 0 := by
  unfold State.resetClears
  split <;> simp

theorem State.resetClears_length_le (s : State) : s.resetClears.length ≤ s.width := by
  rw [State.resetClears_length]
  split <;> simp

theorem State.map_resetClears {α : Type} (s : State) (f : Nat → α) :
    s.resetClears.map f = if s.par.resetClearWrites then (List.range s.width).map f else [] := by
  unfold State.resetClears
  split <;> simp

/-- How a reset ends: attached, or with the raise that stopped it (R170, R172). -/
def attached : Except Raised State → State
  | .ok s => s.setActive true
  | .error r => r.latched

/-- What a reset does after its startup codes. -/
theorem resetInput_of_started {s : State} (h : s.AcksOk 4) :
    resetInput s = attached (if s.par.resetClearWrites then clearController s.restarted else .ok s.restarted) := by
  rw [resetInput_of_startup h]
  dsimp only
  split
  next r hr => exact (congrArg attached hr).symm
  next u hu => exact (congrArg attached hu).symm

/-- A reset whose transactions are all acknowledged (R170). -/
theorem resetInput_of_acks {s : State} (h : s.AcksOk (4 + s.resetClears.length)) :
    resetInput s = (s.restarted.swept s.resetClears).setActive true := by
  rw [resetInput_of_started (h.mono (Nat.le_add_right ..))]
  unfold State.resetClears at h ⊢
  cases hc : s.par.resetClearWrites with
  | true =>
    rw [hc, if_pos rfl, List.length_range] at h
    have h' : s.restarted.AcksOk s.width := State.AcksOk.drop (s := s) h s.restarted_txlog_length rfl
    rw [if_pos rfl, clearController_of_acks h']
    rfl
  | false => rw [if_neg (by simp), if_neg (by simp), State.swept_nil, attached]

/-- A reset whose startup code `k` is answered `fail` (R172). -/
theorem resetInput_of_startup_fails {s : State} {k : Nat} (hk : k < 4) (h : s.FailsAfter k) :
    resetInput s = ((s.clearStatus.started (k + 1)).latchFault .transport 0xFF).unspecifiedBuf := by
  unfold resetInput
  rw [forEach_ctrlCmd_fail (s := s.clearStatus) (ops := s.par.initOpcodes.inOrder) hk h]
  rfl

/-- A reset whose zero write to address `k` is answered `fail` (R172). -/
theorem resetInput_of_clear_fails {s : State} {k : Nat} (hk : k < s.resetClears.length) (h : s.FailsAfter (4 + k)) :
    resetInput s = (s.restarted.sweptUntil k).latchFault .transport (BitVec.ofNat 8 k) := by
  rw [resetInput_of_started (h.1.mono (Nat.le_add_right ..))]
  unfold State.resetClears at hk
  cases hc : s.par.resetClearWrites with
  | true =>
    rw [hc, if_pos rfl, List.length_range] at hk
    have h' : s.restarted.FailsAfter k := State.FailsAfter.drop (s := s) h s.restarted_txlog_length rfl
    rw [if_pos rfl, clearController_of_fails (s := s.restarted) hk h']
    rfl
  | false => simp [hc] at hk

/-- Everything a reset can do. -/
theorem resetInput_cases (s : State) :
    (s.AcksOk (4 + s.resetClears.length) ∧ resetInput s = (s.restarted.swept s.resetClears).setActive true) ∨
    (∃ k, k < 4 ∧
      resetInput s = ((s.clearStatus.started (k + 1)).latchFault .transport 0xFF).unspecifiedBuf) ∨
    (∃ k, k < s.width ∧
      resetInput s = (s.restarted.sweptUntil k).latchFault .transport (BitVec.ofNat 8 k)) := by
  rcases s.acks_cases (4 + s.resetClears.length) with h | ⟨k, hk, h⟩
  · exact .inl ⟨h, resetInput_of_acks h⟩
  · rcases Nat.lt_or_ge k 4 with hk4 | hk4
    · exact .inr (.inl ⟨k, hk4, resetInput_of_startup_fails hk4 h⟩)
    · obtain ⟨j, rfl⟩ := Nat.exists_eq_add_of_le hk4
      have hj : j < s.resetClears.length := by omega
      exact .inr (.inr ⟨j, Nat.lt_of_lt_of_le hj s.resetClears_length_le, resetInput_of_clear_fails hj h⟩)

/-! ### Detach -/

theorem detachInput_of_inactive {s : State} (h : s.status.active = false) : detachInput s = s := by
  simp [detachInput, h]

/-- A detach of an attached machine that writes nothing: by its parameter, or because a fault is latched (R174). -/
theorem detachInput_of_no_clear {s : State} (ha : s.status.active = true)
    (h : s.par.detachClearWrites = false ∨ s.status.faulted = true) :
    detachInput s = (s.setActive false).zeroBuf := by
  unfold detachInput
  rw [if_neg (by simp [ha])]
  exact if_neg (by rcases h with h | h <;> simp [h])

/-- A detach of an attached, unfaulted machine that clears the controller (R174). -/
theorem detachInput_of_clear {s : State} (hs : s.Ready) (hc : s.par.detachClearWrites = true) :
    (s.AcksOk s.width ∧ detachInput s = (s.setActive false).zeroBuf.swept (List.range s.width)) ∨
    (∃ k, k < s.width ∧
      detachInput s = ((s.setActive false).zeroBuf.sweptUntil k).latchFault .transport (BitVec.ofNat 8 k)) := by
  obtain ⟨hf, ha⟩ := hs
  unfold detachInput
  simp only [ha, hc, hf, Bool.not_true, Bool.false_eq_true, if_false, Bool.not_false, Bool.and_self, if_true]
  rcases s.acks_cases s.width with h | ⟨k, hk, h⟩
  · refine .inl ⟨h, ?_⟩
    rw [clearController_of_acks (s := (s.setActive false).zeroBuf) h]
    rfl
  · refine .inr ⟨k, hk, ?_⟩
    rw [clearController_of_fails (s := (s.setActive false).zeroBuf) hk h]
    rfl

/-- Everything a detach can do. -/
theorem detachInput_cases (s : State) :
    (s.status.active = false ∧ detachInput s = s) ∨
    (s.status.active = true ∧ detachInput s = (s.setActive false).zeroBuf) ∨
    (s.Ready ∧ detachInput s = (s.setActive false).zeroBuf.swept (List.range s.width)) ∨
    (s.Ready ∧ ∃ k, k < s.width ∧
      detachInput s = ((s.setActive false).zeroBuf.sweptUntil k).latchFault .transport (BitVec.ofNat 8 k)) := by
  cases ha : s.status.active with
  | false => exact .inl ⟨rfl, detachInput_of_inactive ha⟩
  | true =>
    cases hc : s.par.detachClearWrites with
    | false => exact .inr (.inl ⟨rfl, detachInput_of_no_clear ha (.inl hc)⟩)
    | true =>
      by_cases hf : s.status.faulted = true
      · exact .inr (.inl ⟨rfl, detachInput_of_no_clear ha (.inr hf)⟩)
      · have hs : s.Ready := ⟨by simpa using hf, ha⟩
        rcases detachInput_of_clear hs hc with ⟨-, h⟩ | h
        · exact .inr (.inr (.inl ⟨hs, h⟩))
        · exact .inr (.inr (.inr ⟨hs, h⟩))

end Sys2Proof.Machine
end

section
/-! SUPPORT. What a command word does, said once for every word: `Answers` lists the four ways a command can end
(spec/60_exceptions.md R141 to R144), and a step is one of them, a reset, a detach, or nothing. -/

namespace Sys2Proof.Machine

/-! ### Sequences of writes keep what a `SegWrite` keeps -/

theorem forEach_endState_eq {α β : Type} {f : α → State → Except Raised State} {g : State → β}
    (hf : ∀ x s, g (endState (f x s)) = g s) (xs : List α) (s : State) :
    g (endState (forEach f xs s)) = g s := by
  obtain ⟨hok, herr⟩ := forEach_keeps (f := f) (P := fun t => g t = g s) (Q := fun r => g r.state = g s) (xs := xs)
    (fun x _ t u ht hu => by rw [← ht, ← hf x t, hu, endState])
    (fun x _ t r ht hr => by rw [← ht, ← hf x t, hr, endState]) rfl
  cases h : forEach f xs s with
  | ok t => exact hok t h
  | error r => exact herr r h

theorem segWrite_keeps (a : Nat) (p : Byte) (s : State) :
    (endState (segWrite a p s)).status = s.status ∧ (endState (segWrite a p s)).responses = s.responses ∧
      (endState (segWrite a p s)).buf.length = s.buf.length := by
  rcases segWrite_cases a p s with ⟨-, h⟩ | ⟨-, h⟩ <;> rw [h]
  · exact ⟨rfl, rfl, List.length_set⟩
  · exact ⟨rfl, rfl, List.length_set⟩

theorem writeAll_status (ws : List (Nat × Byte)) (s : State) : (endState (writeAll ws s)).status = s.status :=
  forEach_endState_eq (g := State.status) (fun (w : Nat × Byte) t => (segWrite_keeps w.1 w.2 t).1) ws s

theorem writeAll_responses (ws : List (Nat × Byte)) (s : State) :
    (endState (writeAll ws s)).responses = s.responses :=
  forEach_endState_eq (g := State.responses) (fun (w : Nat × Byte) t => (segWrite_keeps w.1 w.2 t).2.1) ws s

theorem writeAll_buf_length (ws : List (Nat × Byte)) (s : State) :
    (endState (writeAll ws s)).buf.length = s.buf.length :=
  forEach_endState_eq (g := fun t => t.buf.length) (fun (w : Nat × Byte) t => (segWrite_keeps w.1 w.2 t).2.2) ws s

/-- A sequence of writes raises F_TRANSPORT of one of its addresses and nothing else (R143). -/
theorem writeAll_raised {ws : List (Nat × Byte)} {s : State} {r : Raised} (h : writeAll ws s = .error r) :
    r.cause = .transport ∧ ∃ w ∈ ws, r.info = BitVec.ofNat 8 w.1 := by
  refine (forEach_keeps (f := fun w : Nat × Byte => segWrite w.1 w.2) (P := fun _ => True)
    (Q := fun r => r.cause = .transport ∧ ∃ w ∈ ws, r.info = BitVec.ofNat 8 w.1) (xs := ws)
    (fun _ _ _ _ _ _ => trivial) (fun w hw t r _ hr => ?_) (s := s) trivial).2 r h
  rcases segWrite_cases w.1 w.2 t with ⟨-, ht⟩ | ⟨-, ht⟩ <;> rw [ht] at hr
  · cases hr
  · cases hr
    exact ⟨rfl, w, hw, rfl⟩

/-! ### The ways a command can end -/

/-- The cause and info byte a command can latch in this state (R140). -/
def State.Raisable (s : State) : Cause → Byte → Prop
  | .none, _ => False
  | .inactive, x => s.status.active = false ∧ x ≠ 0x01
  | .illegal, _ => True
  | .addr, x => s.width ≤ x.toNat
  | .bitIdx, x => 8 ≤ x.toNat
  | .transport, x => x.toNat < s.width ∨ x = 0xFF

/-- The states a command word with opcode `op` can lead to: refused, a precise fault, data, or a sequence of writes. -/
inductive Answers (op : Byte) (s : State) : State → Prop where
  | refused : s.status.faulted = true → Answers op s (s.respond .refused 0)
  | raised {c : Cause} {x : Byte} : s.status.faulted = false → s.Raisable c x → Answers op s (s.raiseFault c x)
  | data (d : Byte) : s.status.faulted = false → op = 0x01 ∨ op = 0x02 → Answers op s (s.respond .data d)
  | wrote {ws : List (Nat × Byte)} : s.Ready → op ≠ 0x01 ∧ op ≠ 0x02 → (ws.map Prod.fst).Nodup →
      (∀ w ∈ ws, w.1 < s.width) → Answers op s (finish (writeAll ws s))

theorem exec_answers {i : Instr} {s t : State} (h : exec i s = .next t) : Answers i.opcode s t := by
  have of_eq {u : State} (he : exec i s = .next u) (hu : Answers i.opcode s u) : Answers i.opcode s t :=
    Host.Outcome.next.inj (he.symm.trans h) ▸ hu
  rcases exec_cases i s with ⟨hf, he⟩ | ⟨hf, ha, hop, he⟩ | ⟨hf, hop, d, he⟩ | ⟨hs, x, hx, he⟩ | ⟨hs, x, hx, he⟩ |
    ⟨hs, hacc, hw, he⟩
  · exact of_eq he (.refused hf)
  · exact of_eq he (.raised hf ⟨ha, hop⟩)
  · exact of_eq he (.data d hf hop)
  · exact of_eq he (.raised (c := .addr) hs.1 hx)
  · exact of_eq he (.raised (c := .bitIdx) hs.1 hx)
  · exact of_eq he (.wrote hs (opcode_of_commandWrites hw) (commandWrites_nodup i s) (commandWrites_lt hacc))

theorem illegalCommand_answers (w : CommandWord) (s : State) : Answers (fieldOp w) s (illegalCommand w s) := by
  unfold illegalCommand
  rcases commandChecks_cases (fieldOp w) (fun t => t.raiseFault .illegal (fieldOp w)) s with
    ⟨hf, he⟩ | ⟨hf, ha, hop, he⟩ | ⟨hf, -, he⟩ <;> rw [he]
  · exact .refused hf
  · exact .raised hf ⟨ha, hop⟩
  · exact .raised (c := .illegal) hf trivial

/-- A step takes a command word and answers it, or takes a reset, or a detach, or nothing. -/
theorem step_outcomes {s t : State} (h : step s = .next t) :
    (∃ w rest, s.pending = .command w :: rest ∧
      Answers (fieldOp w) { s with pending := rest, index := s.index + 1 } t ∧
      Untouched { s with pending := rest, index := s.index + 1 } t) ∨
    (∃ rest, s.pending = .reset :: rest ∧ t = resetInput { s with pending := rest }) ∨
    (∃ rest, s.pending = .detach :: rest ∧ t = detachInput { s with pending := rest }) ∨
    (s.pending = [] ∧ t = s) := by
  rcases step_cases h with ⟨w, rest, i, hp, hd, he⟩ | ⟨w, rest, e, hp, -, rfl⟩ | h
  · exact .inl ⟨w, rest, hp, decode_opcode hd ▸ exec_answers he, exec_untouched he⟩
  · exact .inl ⟨w, rest, hp, illegalCommand_answers w _, illegalCommand_untouched w _⟩
  · exact .inr h

end Sys2Proof.Machine
end

section
/-! SUPPORT. The controller port (spec/10_state.md R31 to R33): what one step adds to the transaction log, and what
becomes of the controller view by it. -/

namespace Sys2Proof.Machine

/-- From `s` to `t` exactly the transactions `added` were issued: they are logged, and the controller view has changed
at the addresses they wrote and nowhere else. -/
structure Transacted (s t : State) (added : List Tx) : Prop where
  log : t.txlog = s.txlog ++ added
  wf : Memory.wf s.ctrl → Memory.wf t.ctrl
  listed : ∀ a p, Tx.wr a p ∈ added → (Memory.read? t.ctrl a).isSome
  kept : ∀ a, (∀ p, Tx.wr a p ∉ added) → Memory.read? t.ctrl a = Memory.read? s.ctrl a

theorem Transacted.none {s t : State} (hlog : t.txlog = s.txlog) (hctrl : t.ctrl = s.ctrl) : Transacted s t [] where
  log := by simp [hlog]
  wf := hctrl ▸ id
  listed := by simp
  kept := fun _ _ => by rw [hctrl]

theorem Transacted.trans {s t u : State} {l l' : List Tx} (h : Transacted s t l) (h' : Transacted t u l') :
    Transacted s u (l ++ l') where
  log := by rw [h'.log, h.log, List.append_assoc]
  wf := h'.wf ∘ h.wf
  listed := fun a p hp => by
    by_cases hl : ∃ q, Tx.wr a q ∈ l'
    · exact hl.elim fun q hq => h'.listed a q hq
    · rw [h'.kept a (not_exists.mp hl)]
      exact h.listed a p ((List.mem_append.mp hp).resolve_right fun hp' => hl ⟨p, hp'⟩)
  kept := fun a ha => by
    simp only [List.mem_append, not_or] at ha
    rw [h'.kept a fun p => (ha p).2, h.kept a fun p => (ha p).1]

/-- The relation reads only the log and the controller view. -/
theorem Transacted.congr {s t s' t' : State} {l : List Tx} (h : Transacted s t l) (hsl : s'.txlog = s.txlog)
    (hsc : s'.ctrl = s.ctrl) (htl : t'.txlog = t.txlog) (htc : t'.ctrl = t.ctrl) : Transacted s' t' l where
  log := by rw [htl, hsl, h.log]
  wf := by rw [htc, hsc]; exact h.wf
  listed := by rw [htc]; exact h.listed
  kept := by rw [htc, hsc]; exact h.kept

/-- One write, acknowledged or not: the log holds the byte `p` sent, the view the byte `q` that is there after it. -/
theorem Transacted.write {s t : State} {a : Nat} {p q : Byte} (hlog : t.txlog = s.txlog ++ [.wr a p])
    (hctrl : t.ctrl = Memory.write s.ctrl a q) : Transacted s t [.wr a p] where
  log := hlog
  wf := fun h => hctrl ▸ Memory.write_wf h a q
  listed := fun b r hb => by
    obtain ⟨rfl, -⟩ : b = a ∧ r = p := by simpa using hb
    simp [hctrl]
  kept := fun b hb => by
    have hne : b ≠ a := fun he => hb p (by simp [he])
    rw [hctrl, Memory.read?_write_of_ne hne]

/-! ### Sequences of writes -/

/-- However a sequence of writes ends, it issued some first part of them. -/
theorem writeAll_transacted (ws : List (Nat × Byte)) (s : State) :
    ∃ n, Transacted s (endState (writeAll ws s)) ((ws.take n).map fun w => Tx.wr w.1 w.2) := by
  induction ws generalizing s with
  | nil => exact ⟨0, .none rfl rfl⟩
  | cons w ws ih =>
    rcases s.ack_cases with h | h
    · obtain ⟨n, hn⟩ := ih (s.written w.1 w.2)
      rw [writeAll_cons_of_ok h]
      exact ⟨n + 1, (Transacted.write (s := s) rfl rfl).trans hn⟩
    · rw [writeAll_cons_of_fail h]
      exact ⟨1, .write rfl rfl⟩

theorem started_transacted (s : State) (n : Nat) :
    Transacted s (s.started n) ((s.par.initOpcodes.inOrder.take n).map Tx.cmd) where
  log := rfl
  wf := id
  listed := fun a p h => by simp [-List.map_take] at h
  kept := fun _ _ => rfl

theorem swept_transacted (s : State) (as : List Nat) : Transacted s (s.swept as) (as.map fun a => Tx.wr a 0) where
  log := rfl
  wf := fun h => zeroed_wf h as
  listed := fun a p h => by
    have ha : a ∈ as := by
      obtain ⟨b, hb, he⟩ := List.mem_map.mp h
      exact (Tx.wr.inj he).1 ▸ hb
    simp [zeroed_read?, ha]
  kept := fun a h => by
    have ha : a ∉ as := fun ha => h 0 (List.mem_map_of_mem ha)
    simp [zeroed_read?, ha]

theorem sweptUntil_transacted (s : State) (k : Nat) :
    Transacted s (s.sweptUntil k) ((List.range (k + 1)).map fun a => Tx.wr a 0) := by
  have hlast : Transacted (s.swept (List.range k)) (s.sweptUntil k) [.wr k 0] :=
    .write (by simp [State.sweptUntil, List.range_succ]) rfl
  rw [List.range_succ, List.map_append]
  exact (swept_transacted s (List.range k)).trans hlast

/-! ### What a step may issue (R31, R170) -/

/-- Writes to positions of the display and startup codes, of the machine with these parameters. -/
def LegalTxs (par : Params) (l : List Tx) : Prop :=
  (∀ a p, Tx.wr a p ∈ l → a < par.width.positions) ∧ (∀ op, Tx.cmd op ∈ l → op ∈ par.initOpcodes.inOrder)

theorem LegalTxs.nil (par : Params) : LegalTxs par [] := ⟨by simp, by simp⟩

theorem LegalTxs.append {par : Params} {l l' : List Tx} (h : LegalTxs par l) (h' : LegalTxs par l') :
    LegalTxs par (l ++ l') := by
  obtain ⟨hw, hc⟩ := h
  obtain ⟨hw', hc'⟩ := h'
  exact ⟨fun a p ha => (List.mem_append.mp ha).elim (hw a p) (hw' a p),
    fun op ho => (List.mem_append.mp ho).elim (hc op) (hc' op)⟩

theorem LegalTxs.writes {par : Params} {ws : List (Nat × Byte)} (h : ∀ w ∈ ws, w.1 < par.width.positions) :
    LegalTxs par (ws.map fun w => Tx.wr w.1 w.2) := by
  refine ⟨fun a p ha => ?_, by simp⟩
  obtain ⟨w, hw, he⟩ := List.mem_map.mp ha
  exact (Tx.wr.inj he).1 ▸ h w hw

theorem LegalTxs.zeroes {par : Params} {as : List Nat} (h : ∀ a ∈ as, a < par.width.positions) :
    LegalTxs par (as.map fun a => Tx.wr a 0) := by
  have := LegalTxs.writes (par := par) (ws := as.map fun a => (a, 0)) (by simpa using h)
  rwa [List.map_map] at this

theorem LegalTxs.codes {par : Params} {ops : List Nat} (h : ∀ op ∈ ops, op ∈ par.initOpcodes.inOrder) :
    LegalTxs par (ops.map Tx.cmd) :=
  ⟨by simp, by simpa using h⟩

/-- From `s` to `t` some legal transactions were issued, no more than a reset needs. -/
def StepTransacted (s t : State) : Prop :=
  ∃ added, Transacted s t added ∧ LegalTxs s.par added ∧ added.length ≤ 4 + s.width

theorem StepTransacted.none {s t : State} (hlog : t.txlog = s.txlog) (hctrl : t.ctrl = s.ctrl) : StepTransacted s t :=
  ⟨[], .none hlog hctrl, .nil _, Nat.zero_le _⟩

/-- Distinct positions of the display are at most WIDTH. -/
theorem length_le_of_nodup_lt {l : List Nat} {n : Nat} (hnd : l.Nodup) (hlt : ∀ a ∈ l, a < n) : l.length ≤ n := by
  have := hnd.length_le_of_subset (l₂ := List.range n) fun a ha => List.mem_range.mpr (hlt a ha)
  rwa [List.length_range] at this

theorem finish_txlog (r : Except Raised State) : (finish r).txlog = (endState r).txlog := by cases r <;> rfl

theorem finish_ctrl (r : Except Raised State) : (finish r).ctrl = (endState r).ctrl := by cases r <;> rfl

theorem Answers.transacted {op : Byte} {s t : State} (h : Answers op s t) : StepTransacted s t := by
  cases h with
  | refused => exact .none rfl rfl
  | raised => exact .none rfl rfl
  | data => exact .none rfl rfl
  | @wrote ws _ _ hnd hlt =>
    obtain ⟨n, hn⟩ := writeAll_transacted ws s
    refine ⟨_, hn.congr rfl rfl (finish_txlog _) (finish_ctrl _),
      .writes fun w hw => hlt w (List.mem_of_mem_take hw), ?_⟩
    have hlen : ws.length ≤ s.width := by
      simpa using length_le_of_nodup_lt hnd (by simpa using fun a p hp => hlt (a, p) hp)
    simp only [List.length_map, List.length_take]
    omega

theorem restarted_transacted (s : State) : Transacted s s.restarted (s.par.initOpcodes.inOrder.map Tx.cmd) :=
  (started_transacted s 4).congr rfl rfl rfl rfl

theorem resetInput_transacted (s : State) : StepTransacted s (resetInput s) := by
  rcases resetInput_cases s with ⟨-, h⟩ | ⟨k, hk, h⟩ | ⟨k, hk, h⟩ <;> rw [h]
  · refine ⟨_, (restarted_transacted s).trans ((swept_transacted s.restarted s.resetClears).congr rfl rfl rfl rfl),
      (LegalTxs.codes fun _ => id).append (.zeroes fun a ha => (State.mem_resetClears.mp ha).2), ?_⟩
    simp [InitOpcodes.inOrder_length, s.resetClears_length_le]
  · refine ⟨_, (started_transacted s (k + 1)).congr rfl rfl rfl rfl,
      .codes fun op => List.mem_of_mem_take, ?_⟩
    simp only [List.length_map, List.length_take]
    omega
  · refine ⟨_, (restarted_transacted s).trans ((sweptUntil_transacted s.restarted k).congr rfl rfl rfl rfl),
      (LegalTxs.codes fun _ => id).append (.zeroes fun a ha => ?_), ?_⟩
    · exact Nat.lt_of_lt_of_le (List.mem_range.mp ha) hk
    · simp [InitOpcodes.inOrder_length]
      omega

theorem detachInput_transacted (s : State) : StepTransacted s (detachInput s) := by
  rcases detachInput_cases s with ⟨-, h⟩ | ⟨-, h⟩ | ⟨-, h⟩ | ⟨-, k, hk, h⟩ <;> rw [h]
  · exact .none rfl rfl
  · exact .none rfl rfl
  · exact ⟨_, (swept_transacted s _).congr rfl rfl rfl rfl, .zeroes fun a => List.mem_range.mp, by simp⟩
  · refine ⟨_, (sweptUntil_transacted s k).congr rfl rfl rfl rfl, .zeroes fun a ha => ?_, by simp; omega⟩
    exact Nat.lt_of_lt_of_le (List.mem_range.mp ha) hk

/-- What any step does over the controller port. -/
theorem step_transacted {s t : State} (h : step s = .next t) : StepTransacted s t := by
  rcases step_outcomes h with ⟨w, rest, -, ha, -⟩ | ⟨rest, -, rfl⟩ | ⟨rest, -, rfl⟩ | ⟨-, rfl⟩
  · obtain ⟨added, htx, hlegal, hlen⟩ := ha.transacted
    exact ⟨added, htx.congr rfl rfl rfl rfl, hlegal, hlen⟩
  · obtain ⟨added, htx, hlegal, hlen⟩ := resetInput_transacted { s with pending := rest }
    exact ⟨added, htx.congr rfl rfl rfl rfl, hlegal, hlen⟩
  · obtain ⟨added, htx, hlegal, hlen⟩ := detachInput_transacted { s with pending := rest }
    exact ⟨added, htx.congr rfl rfl rfl rfl, hlegal, hlen⟩
  · exact .none rfl rfl

/-! ### The statements -/

/-- Settles O45: the transactions of `step_transacted`, with their bound. -/
theorem transactionLogOnlyGrows : Obligations.TransactionLogOnlyGrows := by
  unfold Obligations.TransactionLogOnlyGrows
  intro s t h
  obtain ⟨added, htx, ⟨hwr, hcmd⟩, hlen⟩ := step_transacted h
  exact ⟨added, htx.log, hlen, hwr, hcmd⟩

/-- Settles O46: the log's growth determines the transactions, so they are those of `step_transacted`. -/
theorem controllerChangesOnlyWhereLogged : Obligations.ControllerChangesOnlyWhereLogged := by
  unfold Obligations.ControllerChangesOnlyWhereLogged
  intro s t added h hlog a ha
  obtain ⟨added', htx, -, -⟩ := step_transacted h
  obtain rfl : added' = added := List.append_cancel_left (htx.log.symm.trans hlog)
  exact htx.kept a ha

/-- The first entries of two canonical views that read alike are at one address: an address below a view's first reads
as no value. -/
theorem Memory.head_le_of_read?_eq {b c : Nat} {q r : Byte} {m m' : Memory} (h' : Memory.wf ((c, r) :: m'))
    (heq : Memory.read? ((b, q) :: m) b = Memory.read? ((c, r) :: m') b) : c ≤ b := by
  by_contra hlt
  have hnone : Memory.read? ((c, r) :: m') b = .none := by
    refine Memory.read?_eq_none_of_lt (List.forall_mem_cons.mpr ⟨by omega, fun d hd => ?_⟩)
    have hcd : c < d.1 := (List.pairwise_cons.mp h').1 d hd
    omega
  simp [hnone, Memory.read?_cons] at heq

/-- In a canonical view the rest does not list the first address again. -/
theorem Memory.read?_tail_head {b : Nat} {q : Byte} {m : Memory} (h : Memory.wf ((b, q) :: m)) :
    Memory.read? m b = none :=
  Memory.read?_eq_none_of_lt (List.pairwise_cons.mp h).1

/-- A canonical view is determined by its reads. -/
theorem Memory.ext_of_wf {m m' : Memory} (h : Memory.wf m) (h' : Memory.wf m')
    (heq : ∀ a, Memory.read? m a = Memory.read? m' a) : m = m' := by
  induction m generalizing m' with
  | nil =>
    match m' with
    | [] => rfl
    | (c, r) :: m' => simpa [Memory.read?_cons] using heq c
  | cons d m ih =>
    obtain ⟨b, q⟩ := d
    match m' with
    | [] => simpa [Memory.read?_cons] using heq b
    | (c, r) :: m' =>
      obtain rfl : b = c :=
        Nat.le_antisymm (Memory.head_le_of_read?_eq h (heq c).symm) (Memory.head_le_of_read?_eq h' (heq b))
      obtain rfl : q = r := by simpa [Memory.read?_cons] using heq b
      rw [ih (List.pairwise_cons.mp h).2 (List.pairwise_cons.mp h').2 fun a => ?_]
      by_cases ha : a = b
      · rw [ha, Memory.read?_tail_head h, Memory.read?_tail_head h']
      · simpa [Memory.read?_cons, ha] using heq a

/-- Settles O47: the laws of a write, and `Memory.ext_of_wf`. -/
theorem controllerViewIsCanonical : Obligations.ControllerViewIsCanonical := by
  unfold Obligations.ControllerViewIsCanonical
  exact ⟨Memory.read?_write, fun m a p h => Memory.write_wf h a p, fun m m' h h' heq => Memory.ext_of_wf h h' heq⟩

end Sys2Proof.Machine
end

section
/-! SUPPORT. STATUS, the response word and how a command is answered (spec/10_state.md R25, R27, R30,
spec/60_exceptions.md R141). -/

namespace Sys2Proof.Machine

/-! ### The fields of STATUS -/

section
variable (st : Status)

theorem Status.word_active : st.word.extractLsb' 0 1 = BitVec.ofBool st.active := by
  unfold Status.word
  rw [BitVec.extractLsb'_append_eq_of_add_le (by decide), BitVec.extractLsb'_append_eq_of_add_le (by decide),
    BitVec.extractLsb'_append_eq_of_add_le (by decide), BitVec.extractLsb'_append_eq_right]

theorem Status.word_faulted : st.word.extractLsb' 1 1 = BitVec.ofBool st.faulted := by
  unfold Status.word
  rw [BitVec.extractLsb'_append_eq_of_add_le (by decide), BitVec.extractLsb'_append_eq_of_add_le (by decide),
    BitVec.extractLsb'_append_eq_of_add_le (by decide), BitVec.extractLsb'_append_eq_left]

theorem Status.word_fcause : st.word.extractLsb' 2 3 = st.fcause.code := by
  unfold Status.word
  rw [BitVec.extractLsb'_append_eq_of_add_le (by decide), BitVec.extractLsb'_append_eq_of_add_le (by decide),
    BitVec.extractLsb'_append_eq_left]

theorem Status.word_reserved : st.word.extractLsb' 5 3 = 0 := by
  unfold Status.word
  rw [BitVec.extractLsb'_append_eq_of_add_le (by decide), BitVec.extractLsb'_append_eq_left]

theorem Status.word_finfo : st.word.extractLsb' 8 8 = st.finfo := BitVec.extractLsb'_append_eq_left

end

/-- Settles O12: one lemma per field; the codes of FCAUSE are as defined. -/
theorem statusWordLayout : Obligations.StatusWordLayout := by
  unfold Obligations.StatusWordLayout
  exact ⟨fun st => ⟨st.word_active, st.word_faulted, st.word_fcause, st.word_reserved, st.word_finfo⟩,
    rfl, rfl, rfl, rfl, rfl, rfl⟩

/-! ### The fields of a response word -/

section
variable (kind : Kind) (data : Byte) (st : Status)

theorem responseWord_kind : (responseWord kind data st).extractLsb' 30 2 = kind.code :=
  BitVec.extractLsb'_append_eq_left

theorem responseWord_reserved : (responseWord kind data st).extractLsb' 24 6 = 0 := by
  unfold responseWord
  rw [BitVec.extractLsb'_append_eq_of_add_le (by decide), BitVec.extractLsb'_append_eq_left]

theorem responseWord_data : (responseWord kind data st).extractLsb' 16 8 = data := by
  unfold responseWord
  rw [BitVec.extractLsb'_append_eq_of_add_le (by decide), BitVec.extractLsb'_append_eq_of_add_le (by decide),
    BitVec.extractLsb'_append_eq_left]

theorem responseWord_status : (responseWord kind data st).extractLsb' 0 16 = st.word := by
  unfold responseWord
  rw [BitVec.extractLsb'_append_eq_of_add_le (by decide), BitVec.extractLsb'_append_eq_of_add_le (by decide),
    BitVec.extractLsb'_append_eq_right]

end

/-- Settles O48: one lemma per field; the codes of KIND are as defined. -/
theorem responseWordLayout : Obligations.ResponseWordLayout := by
  unfold Obligations.ResponseWordLayout
  exact ⟨fun kind data st => ⟨responseWord_kind kind data st, responseWord_reserved kind data st,
    responseWord_data kind data st, responseWord_status kind data st⟩, rfl, rfl, rfl, rfl⟩

/-! ### The one response of a command -/

/-- KIND of the response to a command with opcode `op` that leads from `s` to `t` (R30). -/
def answerKind (op : Byte) (s t : State) : Kind :=
  if s.status.faulted = true then .refused
  else if t.status.faulted = true then .fault
  else if op = 0x01 ∨ op = 0x02 then .data
  else .ok

theorem answerKind_code (op : Byte) (s t : State) :
    (answerKind op s t).code =
      if s.status.faulted = true then 3
      else if t.status.faulted = true then 2
      else if op = 0x01 ∨ op = 0x02 then 1
      else 0 := by
  simp only [answerKind, apply_ite Kind.code]
  rfl

theorem answerKind_of_refused {op : Byte} {s t : State} (hs : s.status.faulted = true) :
    answerKind op s t = .refused := if_pos hs

theorem answerKind_of_raised {op : Byte} {s t : State} (hs : s.status.faulted = false)
    (ht : t.status.faulted = true) : answerKind op s t = .fault := by
  simp [answerKind, hs, ht]

theorem answerKind_of_completed {op : Byte} {s t : State} (hs : s.status.faulted = false) (ht : t.status = s.status) :
    answerKind op s t = if op = 0x01 ∨ op = 0x02 then .data else .ok := by
  simp [answerKind, hs, ht]

/-- A command is answered by one response, with STATUS as the command left it, and with data in a data response only. -/
theorem Answers.response {op : Byte} {s t : State} (h : Answers op s t) :
    ∃ d, t.responses = s.responses ++ [responseWord (answerKind op s t) d t.status] ∧
      (answerKind op s t ≠ .data → d = 0) := by
  cases h with
  | refused hf => exact ⟨0, by rw [answerKind_of_refused hf]; rfl, fun _ => rfl⟩
  | raised hf => exact ⟨0, by rw [answerKind_of_raised hf rfl]; rfl, fun _ => rfl⟩
  | data d hf hop =>
    have hk : answerKind op s (s.respond .data d) = .data := by
      rw [answerKind_of_completed hf (s.respond_status .data d), if_pos hop]
    exact ⟨d, by rw [hk]; rfl, fun hne => absurd hk hne⟩
  | @wrote ws hs hop =>
    obtain ⟨hf, -⟩ := hs
    have hst := writeAll_status ws s
    have hre := writeAll_responses ws s
    refine ⟨0, ?_, fun _ => rfl⟩
    cases hw : writeAll ws s with
    | ok t =>
      rw [hw, endState] at hst hre
      rw [finish_ok, answerKind_of_completed (t := t.respond .ok 0) hf hst, if_neg (by simpa using hop),
        State.respond_responses, hre]
      rfl
    | error r =>
      rw [hw, endState] at hre
      rw [answerKind_of_raised hf rfl, finish_error, State.raiseFault_responses, hre]
      rfl

theorem resetInput_responses (s : State) : (resetInput s).responses = s.responses := by
  rcases resetInput_cases s with ⟨-, h⟩ | ⟨k, -, h⟩ | ⟨k, -, h⟩ <;> rw [h] <;> rfl

theorem detachInput_responses (s : State) : (detachInput s).responses = s.responses := by
  rcases detachInput_cases s with ⟨-, h⟩ | ⟨-, h⟩ | ⟨-, h⟩ | ⟨-, k, -, h⟩ <;> rw [h] <;> rfl

/-- Settles O13: a command by `Answers.response` and the fields of its word; a lifecycle input puts out none. -/
theorem everyCommandAnswersOnce : Obligations.EveryCommandAnswersOnce := by
  unfold Obligations.EveryCommandAnswersOnce
  intro s t h
  rcases step_outcomes h with ⟨w, rest, hp, ha, hu⟩ | ⟨rest, hp, rfl⟩ | ⟨rest, hp, rfl⟩ | ⟨hp, -⟩
  case inl =>
    refine ⟨fun w' rest' hp' => ?_, fun rest' hp' => by simp [hp] at hp'⟩
    obtain ⟨⟨⟩, rfl⟩ := List.cons.inj (hp.symm.trans hp')
    obtain ⟨-, -, -, hpend, hidx⟩ := hu
    obtain ⟨d, hre, hd⟩ := ha.response
    refine ⟨hidx, hpend, _, hre, responseWord_status .., responseWord_reserved .., ?_, fun hk => ?_⟩
    · rw [responseWord_kind, answerKind_code]
    · rw [responseWord_kind] at hk
      rw [responseWord_data, hd fun he => hk (by rw [he]; rfl)]
  case inr.inl =>
    refine ⟨fun w' rest' hp' => by simp [hp] at hp', fun rest' hp' => ?_⟩
    obtain rfl : rest = rest' := by simpa [hp] using hp'
    obtain ⟨-, -, -, hpend, hidx⟩ := resetInput_untouched { s with pending := rest }
    exact ⟨hidx, hpend, resetInput_responses _⟩
  case inr.inr.inl =>
    refine ⟨fun w' rest' hp' => by simp [hp] at hp', fun rest' hp' => ?_⟩
    obtain rfl : rest = rest' := by simpa [hp] using hp'
    obtain ⟨-, -, -, hpend, hidx⟩ := detachInput_untouched { s with pending := rest }
    exact ⟨hidx, hpend, detachInput_responses _⟩
  case inr.inr.inr => exact ⟨fun w rest hp' => by simp [hp] at hp', fun rest hp' => by simp [hp] at hp'⟩

/-! ### The step and the order of the checks (R27, R141) -/

/-- Settles O6: the step takes the word, and the word runs as the command it decodes to. -/
theorem stepRunsDecodedCommand : Obligations.StepRunsDecodedCommand := by
  unfold Obligations.StepRunsDecodedCommand
  intro s w rest i hp hd
  rw [step_of_command hp, runCommand_of_decode hd]

theorem exec_of_inactive {i : Instr} {s : State} (hf : s.status.faulted = false) (ha : s.status.active = false)
    (hop : i.opcode ≠ 0x01) : exec i s = .next (s.raiseFault .inactive i.opcode) := by
  cases i <;> exact congrArg Host.Outcome.next (commandChecks_of_inactive hf ha hop _)

/-- F_INACTIVE comes before F_ILLEGAL: it does not depend on whether the word decodes. -/
theorem runCommand_of_inactive {w : CommandWord} {s : State} (hf : s.status.faulted = false)
    (ha : s.status.active = false) (hop : fieldOp w ≠ 0x01) :
    runCommand w s = .next (s.raiseFault .inactive (fieldOp w)) := by
  cases hd : decode w with
  | ok i =>
    have hi := decode_opcode hd
    rw [runCommand_of_decode hd, exec_of_inactive hf ha (hi ▸ hop), hi]
  | error e => rw [runCommand_of_error hd, illegalCommand, commandChecks_of_inactive hf ha hop]

theorem commandWord_and (op a b op' a' b' : Byte) (e e' : BitVec 1) (z z' : BitVec 7) (v v' : Word32) :
    commandWord op a b e z v &&& commandWord op' a' b' e' z' v' =
      commandWord (op &&& op') (a &&& a') (b &&& b') (e &&& e') (z &&& z') (v &&& v') := by
  unfold commandWord
  iterate 5 refine BitVec.and_append.trans (congrArg _ ?_)
  rfl

/-- Every word LOOKUP is encoded as selects the row of LOOKUP (R63). -/
theorem wellFormedWord_lookup (c : Byte) : wellFormedWord (commandWord 0x01 0 c 0 0 0) = true := by
  have hrow : commandWord 0x01 0 c 0 0 0 &&& 0xFFFF00FFFFFFFFFF = 0x0100000000000000 := by
    rw [show (0xFFFF00FFFFFFFFFF : CommandWord) = commandWord 0xFF 0xFF 0 1 0x7F 0xFFFFFFFF by decide,
      commandWord_and, show c &&& 0 = 0 from BitVec.and_zero]
    decide
  unfold wellFormedWord opcodeTable
  rw [List.any_cons, OpcodeRow.selects, hrow]
  rfl

theorem decode_of_lookup_opcode {w : CommandWord} (h : fieldOp w = 0x01) :
    decode w =
      whenZero (fieldA w == 0 && fieldE w == 0 && fieldZ w == 0 && fieldV w == 0) (.lookup (fieldB w)) := by
  simp [decode, h]

/-- A word with LOOKUP's opcode that selects no row does not decode. -/
theorem decode_of_ill_formed_lookup {w : CommandWord} (hop : fieldOp w = 0x01) (hw : wellFormedWord w = false) :
    decode w = .error .illegalForm := by
  rw [decode_of_lookup_opcode hop, whenZero, if_neg]
  intro hz
  simp only [Bool.and_eq_true, beq_iff_eq] at hz
  obtain ⟨⟨⟨ha, he⟩, hz⟩, hv⟩ := hz
  have hfields := commandWord_fields w
  rw [hop, ha, he, hz, hv] at hfields
  rw [← hfields, wellFormedWord_lookup] at hw
  cases hw

/-- Settles O7: the check for F_INACTIVE reads the opcode alone; a word with LOOKUP's opcode passes it. -/
theorem inactiveMachineAnswersInactiveBeforeIllegal : Obligations.InactiveMachineAnswersInactiveBeforeIllegal := by
  unfold Obligations.InactiveMachineAnswersInactiveBeforeIllegal
  intro s w rest hp hf ha
  refine ⟨fun hop => ?inactive, fun hop hw => ?illegal⟩
  case inactive =>
    rw [step_of_command hp]
    exact runCommand_of_inactive (s := { s with pending := rest, index := s.index + 1 }) hf ha hop
  case illegal =>
    rw [step_of_command hp, runCommand_of_error (decode_of_ill_formed_lookup hop hw), illegalCommand, hop]
    exact congrArg Host.Outcome.next
      (commandChecks_of_lookup (s := { s with pending := rest, index := s.index + 1 }) hf _)

end Sys2Proof.Machine
end

section
/-! SUPPORT. A reset that completes (spec/70_reset_and_hazards.md R170, R171) and the model's reset state
(spec/10_state.md R34). -/

namespace Sys2Proof.Machine

/-- Settles O37: the reset of `resetInput_of_acks`, read field by field. -/
theorem resetReinitialisesFromEveryState : Obligations.ResetReinitialisesFromEveryState := by
  unfold Obligations.ResetReinitialisesFromEveryState
  intro s rest hp hacks
  rw [← s.resetClears_length] at hacks
  refine ⟨_, (step_of_reset hp).trans (congrArg _ (resetInput_of_acks (s := { s with pending := rest }) hacks)),
    rfl, rfl, ?log, fun a => ?ctrl, rfl, rfl, rfl, rfl, rfl, rfl⟩
  case log => exact congrArg _ (s.map_resetClears _)
  case ctrl => exact (zeroed_read? s.ctrl s.resetClears a).trans (by simp only [State.mem_resetClears])

/-- Zero writes to ascending addresses, from an empty view, list those addresses. -/
theorem zeroed_nil_range (w : Width) :
    zeroed [] (List.range w.positions) = (List.range w.positions).map fun a => (a, 0) := by
  cases w <;> decide

/-- Settles O36: the acknowledged reset of the power-on state; its empty controller view lists the addresses cleared. -/
theorem resetAtPowerOnGivesTheResetState : Obligations.ResetAtPowerOnGivesTheResetState := by
  unfold Obligations.ResetAtPowerOnGivesTheResetState
  intro p rom
  have hacks : ∀ n, (State.powerOnOf p rom).AcksOk n := fun n k _ => by simp [State.powerOnOf]
  have hlog : (State.powerOnOf p rom).resetClears.map (fun a => Tx.wr a 0) =
      if p.resetClearWrites then (List.range p.width.positions).map (fun a => Tx.wr a 0) else [] :=
    State.map_resetClears _ _
  have hctrl : zeroed [] (State.powerOnOf p rom).resetClears =
      if p.resetClearWrites then (List.range p.width.positions).map (fun a => (a, 0)) else [] := by
    rw [← zeroed_nil_range, State.resetClears, apply_ite (zeroed [])]
    rfl
  rw [step_of_reset rfl, State.resetOf, ← hlog, ← hctrl]
  exact congrArg _ (resetInput_of_acks (s := State.powerOnOf p rom) (hacks _))

end Sys2Proof.Machine
end

section
/-! SUPPORT. The invariant of every run, `State.Inv`, is kept by every step (spec/10_state.md R22, R25, R27, R30 to R33,
spec/60_exceptions.md R140). -/

namespace Sys2Proof.Machine

/-! ### The Digit Buffer has WIDTH entries (R22) -/

theorem finish_buf (r : Except Raised State) : (finish r).buf = (endState r).buf := by cases r <;> rfl

theorem Answers.buf_length {op : Byte} {s t : State} (h : Answers op s t) : t.buf.length = s.buf.length := by
  cases h with
  | refused => rfl
  | raised => rfl
  | data => rfl
  | @wrote ws => rw [finish_buf, writeAll_buf_length]

theorem resetInput_buf_length (s : State) : (resetInput s).buf.length = s.width := by
  rcases resetInput_cases s with ⟨-, h⟩ | ⟨k, -, h⟩ | ⟨k, -, h⟩ <;> rw [h] <;> simp

theorem detachInput_bufSized {s : State} (hs : s.BufSized) : (detachInput s).buf.length = s.width := by
  rcases detachInput_cases s with ⟨-, h⟩ | ⟨-, h⟩ | ⟨-, h⟩ | ⟨-, k, -, h⟩ <;> rw [h]
  · exact hs
  all_goals simp

/-! ### The fields of STATUS agree (R25, R140) -/

/-- Legality reads STATUS and the width alone. -/
theorem State.StatusLegal.congr {s t : State} (h : s.StatusLegal) (hst : t.status = s.status) (hpar : t.par = s.par) :
    t.StatusLegal := by
  unfold State.StatusLegal State.width at *
  rwa [hst, hpar]

/-- A latched cause with an info byte it can have leaves STATUS legal. -/
theorem State.Raisable.legal {s : State} {c : Cause} {x : Byte} (h : s.Raisable c x) :
    (s.latchFault c x).StatusLegal := by
  cases c <;> simp_all [State.Raisable, State.StatusLegal]

theorem State.raisable_transport {s : State} {a : Nat} (h : a < s.width) :
    s.Raisable .transport (BitVec.ofNat 8 a) :=
  .inl (by rw [BitVec.toNat_ofNat]; exact Nat.lt_of_le_of_lt (Nat.mod_le a _) h)

/-- The info byte of a command transaction that failed is no address (R140). -/
theorem State.raisable_command (s : State) : s.Raisable .transport 0xFF := .inr rfl

theorem Untouched.width {s t : State} (h : Untouched s t) : t.width = s.width :=
  congrArg (·.width.positions) h.1

theorem Answers.statusLegal {op : Byte} {s t : State} (h : Answers op s t) (hs : s.StatusLegal) : t.StatusLegal := by
  cases h with
  | refused => exact hs
  | raised _ hr => exact hr.legal
  | data => exact hs
  | @wrote ws _ _ _ hlt =>
    have hst := writeAll_status ws s
    have hun := writeAll_untouched ws s
    cases hw : writeAll ws s with
    | ok t =>
      rw [hw] at hst hun
      exact hs.congr (t := t) hst hun.1
    | error r =>
      rw [hw] at hun
      obtain ⟨hc, v, hv, hi⟩ := writeAll_raised hw
      have hlt' : v.1 < r.state.width := Nat.lt_of_lt_of_eq (hlt v hv) hun.width.symm
      rw [finish_error, hc, hi]
      exact (State.raisable_transport hlt').legal

theorem clear_statusLegal {s : State} (hf : s.status.faulted = false) (hc : s.status.fcause = .none)
    (hi : s.status.finfo = 0) : s.StatusLegal := by
  simp [State.StatusLegal, hf, hc, hi]

theorem resetInput_statusLegal (s : State) : (resetInput s).StatusLegal := by
  rcases resetInput_cases s with ⟨-, h⟩ | ⟨k, -, h⟩ | ⟨k, hk, h⟩ <;> rw [h]
  · exact clear_statusLegal rfl rfl rfl
  · exact (s.clearStatus.started (k + 1)).raisable_command.legal.congr rfl rfl
  · exact (State.raisable_transport (s := s.restarted.sweptUntil k) hk).legal

/-- Detaching takes ACTIVE away and nothing else from STATUS, which no cause forbids. -/
theorem State.StatusLegal.detached {s t : State} (h : s.StatusLegal)
    (hst : t.status = { s.status with active := false }) (hpar : t.par = s.par) : t.StatusLegal := by
  unfold State.StatusLegal State.width at *
  rw [hst, hpar]
  obtain ⟨hclear, hfault, hinactive, hrest⟩ := h
  exact ⟨hclear, hfault, fun hc => ⟨rfl, (hinactive hc).2⟩, hrest⟩

theorem detachInput_statusLegal {s : State} (hs : s.StatusLegal) : (detachInput s).StatusLegal := by
  rcases detachInput_cases s with ⟨-, h⟩ | ⟨-, h⟩ | ⟨-, h⟩ | ⟨-, k, hk, h⟩ <;> rw [h]
  · exact hs
  · exact hs.detached rfl rfl
  · exact hs.detached rfl rfl
  · exact (State.raisable_transport (s := (s.setActive false).zeroBuf.sweptUntil k) hk).legal

/-! ### Each part of the invariant, across a step -/

theorem step_bufSized {s t : State} (h : step s = .next t) (hs : s.BufSized) : t.BufSized := by
  obtain ⟨-, hpar, -⟩ := romAndParametersNeverChange s t h
  show t.buf.length = t.par.width.positions
  rw [hpar]
  rcases step_outcomes h with ⟨w, rest, -, ha, -⟩ | ⟨rest, -, rfl⟩ | ⟨rest, -, rfl⟩ | ⟨-, rfl⟩
  · exact ha.buf_length.trans hs
  · exact resetInput_buf_length _
  · exact detachInput_bufSized hs
  · exact hs

theorem step_statusLegal {s t : State} (h : step s = .next t) (hs : s.StatusLegal) : t.StatusLegal := by
  rcases step_outcomes h with ⟨w, rest, -, ha, -⟩ | ⟨rest, -, rfl⟩ | ⟨rest, -, rfl⟩ | ⟨-, rfl⟩
  · exact ha.statusLegal (hs.congr rfl rfl)
  · exact resetInput_statusLegal _
  · exact detachInput_statusLegal (hs.congr rfl rfl)
  · exact hs

/-- Responses and index go together: a command advances both by one, nothing else either (R27, R30). -/
theorem step_responses_length {s t : State} (h : step s = .next t) (hs : s.responses.length = s.index) :
    t.responses.length = t.index := by
  obtain ⟨hcmd, hlife⟩ := everyCommandAnswersOnce s t h
  match hp : s.pending with
  | .command w :: rest =>
    obtain ⟨hidx, -, r, hre, -⟩ := hcmd w rest hp
    rw [hre, hidx, List.length_append, hs, List.length_singleton]
  | .reset :: rest =>
    obtain ⟨hidx, -, hre⟩ := hlife rest (.inl hp)
    rw [hre, hidx, hs]
  | .detach :: rest =>
    obtain ⟨hidx, -, hre⟩ := hlife rest (.inr hp)
    rw [hre, hidx, hs]
  | [] => rwa [← Host.Outcome.next.inj ((step_of_nothing hp).symm.trans h)]

/-- The controller view lists exactly the addresses written, before and after some transactions (R32, R33). -/
theorem Transacted.listed_iff {s t : State} {added : List Tx} (h : Transacted s t added) {a : Nat}
    (hs : (Memory.read? s.ctrl a).isSome ↔ ∃ p, Tx.wr a p ∈ s.txlog) :
    (Memory.read? t.ctrl a).isSome ↔ ∃ p, Tx.wr a p ∈ t.txlog := by
  rw [h.log]
  by_cases ha : ∃ p, Tx.wr a p ∈ added
  · obtain ⟨p, hp⟩ := ha
    exact iff_of_true (h.listed a p hp) ⟨p, List.mem_append_right _ hp⟩
  · rw [h.kept a (not_exists.mp ha), hs]
    simp only [List.mem_append, exists_or, ha, or_false]

/-- Settles O41: each part of the invariant is kept by the lemma on that part. -/
theorem everyStepKeepsTheInvariant : Obligations.EveryStepKeepsTheInvariant := by
  unfold Obligations.EveryStepKeepsTheInvariant
  rintro s t ⟨hbuf, hwf, hlisted, hwr, hcmd, hstatus, hresp⟩ h
  obtain ⟨added, htx, hlegal, -⟩ := step_transacted h
  obtain ⟨-, hpar, -⟩ := romAndParametersNeverChange s t h
  obtain ⟨hwr', hcmd'⟩ : LegalTxs t.par t.txlog := by
    rw [htx.log, hpar]
    exact LegalTxs.append ⟨hwr, hcmd⟩ hlegal
  exact ⟨step_bufSized h hbuf, htx.wf hwf, fun a => htx.listed_iff (hlisted a), hwr', hcmd', step_statusLegal h hstatus,
    step_responses_length h hresp⟩

end Sys2Proof.Machine
end

section
/-! SUPPORT. The shadow invariant (spec/10_state.md R23): where it is kept, where it holds from the start, and the one
input that leaves buffer and controller apart (log 14). -/

namespace Sys2Proof.Machine

/-! ### Writes since the last reset -/

/-- Logging writes keeps what was written since the last reset and adds the addresses written. -/
theorem writtenSinceReset_append_writes (log : List Tx) (ws : List (Nat × Byte)) (a : Nat) :
    writtenSinceReset (log ++ ws.map fun w => Tx.wr w.1 w.2) a ↔
      a ∈ ws.map Prod.fst ∨ writtenSinceReset log a := by
  have hwr : ∀ x ∈ (ws.map fun w => Tx.wr w.1 w.2).reverse, x.isWr = true := by
    simp only [List.mem_reverse, List.forall_mem_map]
    exact fun _ _ => rfl
  unfold writtenSinceReset
  rw [List.reverse_append, List.takeWhile_append_of_pos hwr]
  simp [exists_or]

/-- After a startup code nothing has been written since the last reset. -/
theorem not_writtenSinceReset_codes (log : List Tx) (codes : InitOpcodes) (a : Nat) :
    ¬ writtenSinceReset (log ++ codes.inOrder.map Tx.cmd) a := by
  simp [writtenSinceReset, InitOpcodes.inOrder, Tx.isWr]

/-! ### Commands, reset and detach keep the shadow -/

/-- The invariant speaks of attached, unfaulted machines only. -/
theorem State.shadow_of_not_ready {s : State} (h : ¬ s.Ready) : s.Shadow := fun hs => absurd hs h

/-- Completed writes put the same byte in the buffer and in the controller, and change neither elsewhere. -/
theorem Wrote.shadow {s t : State} {ws : List (Nat × Byte)} (h : Wrote s t ws) (hs : s.Ready) (hsh : s.Shadow)
    (hw : t.width = s.width) : t.Shadow := by
  obtain ⟨hlog, hin, hout, -⟩ := h
  intro _ a ha hwritten
  by_cases hmem : a ∈ ws.map Prod.fst
  · obtain ⟨w, hw, rfl⟩ := List.mem_map.mp hmem
    obtain ⟨hbuf, hctrl⟩ := hin w hw
    rw [hbuf, hctrl]
  · rw [hlog, writtenSinceReset_append_writes] at hwritten
    obtain ⟨hbuf, hctrl⟩ := hout a hmem
    rw [hbuf, hctrl]
    exact hsh hs a (hw ▸ ha) (hwritten.resolve_left hmem)

theorem Answers.shadow {op : Byte} {s t : State} (h : Answers op s t) (hb : s.BufSized) (hsh : s.Shadow) :
    t.Shadow := by
  cases h with
  | refused => exact hsh
  | raised => exact State.shadow_of_not_ready fun hs => Bool.noConfusion hs.1
  | data => exact hsh
  | @wrote ws hs _ hnd hlt =>
    have hlt' : ∀ w ∈ ws, w.1 < s.buf.length := fun w hw => hb.symm ▸ hlt w hw
    rcases s.acks_cases ws.length with hacks | ⟨k, hk, hfails⟩
    · obtain ⟨t, ht, hwrote, hun, -⟩ := writeAll_ok hacks hnd hlt'
      rw [ht]
      exact hwrote.shadow hs hsh hun.width
    · obtain ⟨r, hr, -⟩ := writeAll_fail hk hfails hnd hlt'
      rw [hr]
      exact State.shadow_of_not_ready fun hs => Bool.noConfusion hs.1

/-- A completed reset leaves 0 in the buffer everywhere and in the controller wherever it wrote. -/
theorem resetInput_shadow (s : State) : (resetInput s).Shadow := by
  rcases resetInput_cases s with ⟨-, h⟩ | ⟨k, -, h⟩ | ⟨k, -, h⟩ <;> rw [h]
  · intro _ a ha hwritten
    have hlog : ((s.restarted.swept s.resetClears).setActive true).txlog =
        (s.txlog ++ s.par.initOpcodes.inOrder.map Tx.cmd) ++
          (s.resetClears.map fun a => (a, (0 : Byte))).map fun w => Tx.wr w.1 w.2 := by simp
    rw [hlog, writtenSinceReset_append_writes] at hwritten
    have hmem : a ∈ s.resetClears := by
      simpa using hwritten.resolve_right (not_writtenSinceReset_codes _ _ _)
    simp [zeroed_read?, hmem, State.bufAt]
  all_goals exact State.shadow_of_not_ready fun hs => Bool.noConfusion hs.2

/-- A detach leaves no attached machine behind, or the state as it was. -/
theorem detachInput_shadow {s : State} (hsh : s.Shadow) : (detachInput s).Shadow := by
  rcases detachInput_cases s with ⟨-, h⟩ | ⟨-, h⟩ | ⟨-, h⟩ | ⟨-, k, -, h⟩ <;> rw [h]
  · exact hsh
  all_goals exact State.shadow_of_not_ready fun hs => Bool.noConfusion hs.2

/-- Settles O42: the shadow across each outcome of a step. -/
theorem everyStepKeepsTheShadowInvariant : Obligations.EveryStepKeepsTheShadowInvariant := by
  unfold Obligations.EveryStepKeepsTheShadowInvariant
  intro s t hb hsh h
  rcases step_outcomes h with ⟨w, rest, -, ha, -⟩ | ⟨rest, -, rfl⟩ | ⟨rest, -, rfl⟩ | ⟨-, rfl⟩
  · exact ha.shadow hb hsh
  · exact resetInput_shadow _
  · exact detachInput_shadow hsh
  · exact hsh

/-! ### The reset state (R34) -/

/-- Neither invariant speaks of what the host presents. -/
theorem State.Inv.withPending {s : State} (h : s.Inv) (l : List Input) : State.Inv { s with pending := l } := h

theorem State.Shadow.withPending {s : State} (h : s.Shadow) (l : List Input) :
    State.Shadow { s with pending := l } := h

theorem powerOnOf_bufSized (p : Params) (rom : Vector Byte 16) : (State.powerOnOf p rom).BufSized :=
  (List.length_map _).trans List.length_range

theorem powerOnOf_inv (p : Params) (rom : Vector Byte 16) : (State.powerOnOf p rom).Inv :=
  ⟨powerOnOf_bufSized p rom, List.Pairwise.nil, by simp [State.powerOnOf],
    by simp [State.powerOnOf], by simp [State.powerOnOf], clear_statusLegal rfl rfl rfl, rfl⟩

theorem resetOf_inv (p : Params) (rom : Vector Byte 16) : (State.resetOf p rom).Inv :=
  everyStepKeepsTheInvariant _ _ ((powerOnOf_inv p rom).withPending [.reset]) (resetAtPowerOnGivesTheResetState p rom)

theorem resetOf_shadow (p : Params) (rom : Vector Byte 16) : (State.resetOf p rom).Shadow :=
  everyStepKeepsTheShadowInvariant { State.powerOnOf p rom with pending := [.reset] } _ (powerOnOf_bufSized p rom)
    (State.shadow_of_not_ready fun hs => Bool.noConfusion hs.2) (resetAtPowerOnGivesTheResetState p rom)

/-- Settles O40: the reset state is one step from power-on, and steps keep both invariants. -/
theorem resetStateMeetsTheInvariants : Obligations.ResetStateMeetsTheInvariants := by
  unfold Obligations.ResetStateMeetsTheInvariants
  exact ⟨fun p rom => ⟨resetOf_inv p rom, resetOf_shadow p rom, powerOnOf_inv p rom⟩,
    resetOf_inv Config.params Config.rom, resetOf_shadow Config.params Config.rom⟩

/-! ### Detach without clearing writes (R174, log 14) -/

theorem step_of_detach_no_clear {s : State} {rest : List Input} (hs : s.Ready) (hp : s.pending = .detach :: rest)
    (hc : s.par.detachClearWrites = false) :
    step s = .next (({ s with pending := rest } : State).setActive false).zeroBuf := by
  rw [step_of_detach hp, detachInput_of_no_clear (s := { s with pending := rest }) hs.2 (.inl hc)]

theorem State.zeroBuf_bufAt (s : State) (a : Nat) : s.zeroBuf.bufAt a = 0 := by
  simp [State.bufAt]

/-- A four-position display that writes zeroes at reset and nothing at detach. -/
def quietDetach : Params where
  width := .four
  maxAddrBeyond := 0
  initOpcodes := { clockSource := 1, biasMode := 2, systemEnable := 3, displayEnable := 4 }
  resetClearWrites := true
  detachClearWrites := false
  primaryDotAddr := ⟨0, by decide⟩

/-- Its machine after reset, about to show a pattern at address 0 and then to be detached. -/
def beforePattern : State :=
  { State.resetOf quietDetach (Vector.replicate 16 0) with
    pending := [.command (encode (.wpat 0 0xA5)), .detach] }

/-- The same machine with the pattern shown. -/
def patternShown : State :=
  { beforePattern with
    buf := [0xA5, 0, 0, 0]
    ctrl := [(0, 0xA5), (1, 0), (2, 0), (3, 0)]
    txlog := [.cmd 1, .cmd 2, .cmd 3, .cmd 4, .wr 0 0, .wr 1 0, .wr 2 0, .wr 3 0, .wr 0 0xA5]
    pending := [.detach]
    index := 1
    responses := [0x00000001] }

theorem step_beforePattern : step beforePattern = .next patternShown := by rfl

theorem patternShown_inv : patternShown.Inv :=
  everyStepKeepsTheInvariant beforePattern _ ((resetOf_inv quietDetach _).withPending _) step_beforePattern

theorem patternShown_shadow : patternShown.Shadow :=
  everyStepKeepsTheShadowInvariant beforePattern _ rfl ((resetOf_shadow quietDetach _).withPending _) step_beforePattern

theorem patternShown_written : ∀ a, a < patternShown.width → writtenSinceReset patternShown.txlog a := by
  intro a ha
  have ha4 : a < 4 := ha
  have hlog : patternShown.txlog = [.cmd 1, .cmd 2, .cmd 3, .cmd 4] ++
      ([(0, 0), (1, 0), (2, 0), (3, 0), (0, 0xA5)] : List (Nat × Byte)).map fun w => Tx.wr w.1 w.2 := rfl
  rw [hlog, writtenSinceReset_append_writes]
  refine .inl ?_
  simp only [List.map_cons, List.map_nil, List.mem_cons, List.not_mem_nil]
  omega

/-- Settles O43: such a detach zeroes the buffer and leaves the controller; `patternShown` is a state where they then
differ at address 0. -/
theorem detachCanLeaveTheShadowBehind : Obligations.DetachCanLeaveTheShadowBehind := by
  unfold Obligations.DetachCanLeaveTheShadowBehind
  constructor
  · intro s rest hs hsh hp hc
    refine ⟨_, step_of_detach_no_clear hs hp hc, hs.1, rfl, fun a ha hw => ⟨hw, State.zeroBuf_bufAt _ a, ?_⟩⟩
    exact hsh hs a ha hw
  · exact ⟨patternShown, _, [], patternShown_inv, patternShown_shadow, ⟨rfl, rfl⟩, rfl, rfl, patternShown_written,
      step_of_detach_no_clear ⟨rfl, rfl⟩ rfl rfl, rfl, patternShown_written, 0, by decide, by decide⟩

end Sys2Proof.Machine
end

section
/-! SUPPORT. Faults of the address operand (spec/20_memory.md R41, spec/60_exceptions.md R140): the range check comes
right after the common checks, so what a command would do with a legal address does not matter. -/

namespace Sys2Proof.Machine

/-- The body `body` never runs, whichever command (`op`) it belongs to. -/
theorem commandChecks_withAddr_of_le {s : State} {a : Byte} (hs : s.Ready) (ha : s.width ≤ a.toNat) (op : Byte)
    (body : State → State) : commandChecks op (withAddr a body) s = afterFault s .addr a := by
  rw [commandChecks_of_ready hs, withAddr_of_le ha, raiseFault_eq_afterFault]

/-- Settles O32: each of the five commands is the common checks followed by the address check; the bit index check of
SETBIT stands inside the body that does not run (R131). -/
theorem addressPastTheDisplayRaisesAddr : Obligations.AddressPastTheDisplayRaisesAddr := by
  unfold Obligations.AddressPastTheDisplayRaisesAddr
  intro s a x e hs ha
  have hraise := commandChecks_withAddr_of_le hs ha
  refine ⟨?read, ?wpat, ?setdig, ?clra, ?setbit⟩
  case read => rw [exec, execRead, hraise]
  case wpat => rw [exec, execWpat, hraise]
  case setdig => rw [exec, execSetdig, hraise]
  case clra => rw [exec, execClra, hraise]
  case setbit => rw [exec, execSetbit, hraise]

end Sys2Proof.Machine
end

section
/-! SUPPORT. The encoding of command words (spec/30_encoding.md R60 to R66): `encode` and `decode` are inverse to each
other, and a word selects a row of the match and mask table exactly when it decodes to a command with the row's
opcode. -/

namespace Sys2Proof

/-! ### A word and its fields (R60) -/

/-- A word is given by its six fields. -/
theorem eq_commandWord_iff {w : CommandWord} {op a b : Byte} {e : BitVec 1} {z : BitVec 7} {v : Word32} :
    w = commandWord op a b e z v ↔
      fieldOp w = op ∧ fieldA w = a ∧ fieldB w = b ∧ fieldE w = e ∧ fieldZ w = z ∧ fieldV w = v := by
  constructor
  · rintro rfl
    simp
  · rintro ⟨rfl, rfl, rfl, rfl, rfl, rfl⟩
    exact (commandWord_fields w).symm

section
variable (w m : CommandWord)

@[simp] theorem fieldOp_and : fieldOp (w &&& m) = fieldOp w &&& fieldOp m := BitVec.extractLsb'_and
@[simp] theorem fieldA_and : fieldA (w &&& m) = fieldA w &&& fieldA m := BitVec.extractLsb'_and
@[simp] theorem fieldB_and : fieldB (w &&& m) = fieldB w &&& fieldB m := BitVec.extractLsb'_and
@[simp] theorem fieldE_and : fieldE (w &&& m) = fieldE w &&& fieldE m := BitVec.extractLsb'_and
@[simp] theorem fieldZ_and : fieldZ (w &&& m) = fieldZ w &&& fieldZ m := BitVec.extractLsb'_and
@[simp] theorem fieldV_and : fieldV (w &&& m) = fieldV w &&& fieldV m := BitVec.extractLsb'_and

end

/-! ### The enable operand is field E as a truth value (R61) -/

@[simp] theorem ofBool_beq_one (e : BitVec 1) : BitVec.ofBool (e == 1#1) = e := by
  revert e
  decide

@[simp] theorem beq_one_ofBool (e : Bool) : (BitVec.ofBool e == 1#1) = e := by
  cases e <;> rfl

/-! ### Round trips -/

@[simp] theorem whenZero_eq_ok {mbz : Bool} {i j : Instr} : whenZero mbz i = .ok j ↔ mbz = true ∧ i = j := by
  cases mbz <;> simp [whenZero]

theorem decode_encode (i : Instr) : decode (encode i) = .ok i := by
  cases i <;> simp [encode, decode, Instr.opcode]

/-- The must-be-zero checks of R64 leave no bit of a legal word outside the opcode and the operands. -/
theorem encode_of_decode {w : CommandWord} {i : Instr} (h : decode w = .ok i) : encode i = w := by
  have hop := decode_opcode h
  symm
  unfold decode at h
  split at h
  case h_11 => cases h
  all_goals
    obtain ⟨hzero, rfl⟩ := whenZero_eq_ok.mp h
    simp_all [encode, eq_commandWord_iff]

/-- Settles O1: the decoder reads the encoder's fields back, constructor by constructor. -/
theorem decodeEncodeRoundTrip : Obligations.DecodeEncodeRoundTrip := decode_encode

/-- Settles O2: opcode, operands and zero fields make up the whole word. -/
theorem encodeDecodeRoundTrip : Obligations.EncodeDecodeRoundTrip := fun _ _ => encode_of_decode

/-- Settles O4 by evaluation: the words are literals. -/
theorem writtenOutWordsDecode : Obligations.WrittenOutWordsDecode := by
  unfold Obligations.WrittenOutWordsDecode
  decide

/-! ### The rows of the match and mask table by fields (R62, R63) -/

/-- The mask of a field that must be zero, or of a field that is an operand. -/
def maskField {n : Nat} (mbz : Bool) : BitVec n := if mbz then BitVec.allOnes n else 0#n

theorem and_maskField_eq_zero {n : Nat} {mbz : Bool} {x : BitVec n} :
    x &&& maskField mbz = 0#n ↔ (mbz = true → x = 0#n) := by
  cases mbz <;> simp [maskField]

/-- The row of an opcode whose words have Z zero, and of A, B, E and V the marked fields zero. -/
def fieldRow (mnemonic : String) (op : Byte) (a b e v : Bool) : OpcodeRow where
  mnemonic := mnemonic
  pattern := commandWord op 0 0 0 0 0
  mask := commandWord (maskField true) (maskField a) (maskField b) (maskField e) (maskField true) (maskField v)

/-- The table says of each opcode which of the fields A, B, E and V must be zero (R62). -/
theorem opcodeTable_eq_fieldRows : opcodeTable =
    [ fieldRow "LOOKUP" 0x01 true false true true
    , fieldRow "READ" 0x02 false true true true
    , fieldRow "WPAT" 0x03 false false true true
    , fieldRow "SETDIG" 0x04 false false true true
    , fieldRow "CLRA" 0x05 false true true true
    , fieldRow "CLRALL" 0x06 true true true true
    , fieldRow "SETBIT" 0x07 false false false true
    , fieldRow "SETIND" 0x08 true true false true
    , fieldRow "REND6" 0x09 true true true false
    , fieldRow "REND4" 0x0A true true true false ] := by
  decide

@[simp] theorem fieldRow_opcode (mnemonic : String) (op : Byte) (a b e v : Bool) :
    fieldOp (fieldRow mnemonic op a b e v).pattern = op := fieldOp_commandWord ..

theorem fieldRow_selects {mnemonic : String} {op : Byte} {a b e v : Bool} {w : CommandWord} :
    (fieldRow mnemonic op a b e v).selects w = true ↔
      fieldOp w = op ∧ (a = true → fieldA w = 0) ∧ (b = true → fieldB w = 0) ∧ (e = true → fieldE w = 0) ∧
        fieldZ w = 0 ∧ (v = true → fieldV w = 0) := by
  have hop : fieldOp w &&& maskField true = fieldOp w := BitVec.and_allOnes
  simp [OpcodeRow.selects, fieldRow, eq_commandWord_iff, and_maskField_eq_zero, hop]

/-! ### The decoder and the table -/

/-- The opcode names the row. -/
theorem row_eq_of_opcode_eq :
    ∀ r ∈ opcodeTable, ∀ r' ∈ opcodeTable, fieldOp r.pattern = fieldOp r'.pattern → r = r' := by
  decide

/-- A word that selects a row passes the decoder's checks for the row's opcode. -/
theorem exists_decode_of_selects {r : OpcodeRow} (hr : r ∈ opcodeTable) {w : CommandWord} (h : r.selects w = true) :
    ∃ i, decode w = .ok i ∧ i.opcode = fieldOp r.pattern := by
  simp only [opcodeTable_eq_fieldRows, List.mem_cons, List.not_mem_nil, or_false] at hr
  rcases hr with rfl | rfl | rfl | rfl | rfl | rfl | rfl | rfl | rfl | rfl
  all_goals
    simp only [fieldRow_selects] at h
    simp [decode, h, Instr.opcode]

/-- The word of a command selects the row of its opcode. -/
theorem exists_row_selects_encode (i : Instr) :
    ∃ r ∈ opcodeTable, fieldOp r.pattern = i.opcode ∧ r.selects (encode i) = true := by
  simp only [opcodeTable_eq_fieldRows]
  cases i <;> simp [encode, fieldRow_selects, Instr.opcode]

/-- The field decoder and the match and mask table, row by row. -/
theorem selects_iff_decode {r : OpcodeRow} (hr : r ∈ opcodeTable) {w : CommandWord} :
    r.selects w = true ↔ ∃ i, decode w = .ok i ∧ i.opcode = fieldOp r.pattern := by
  refine ⟨exists_decode_of_selects hr, ?_⟩
  rintro ⟨i, hd, hop⟩
  obtain ⟨r', hr', hop', hsel⟩ := exists_row_selects_encode i
  obtain rfl := row_eq_of_opcode_eq r' hr' r hr (hop'.trans hop)
  rwa [encode_of_decode hd] at hsel

/-- Two rows that select one word have the opcode of the one command the word decodes to. -/
theorem row_eq_of_selects {r r' : OpcodeRow} (hr : r ∈ opcodeTable) (hr' : r' ∈ opcodeTable) {w : CommandWord}
    (h : r.selects w = true) (h' : r'.selects w = true) : r = r' := by
  obtain ⟨i, hd, hop⟩ := (selects_iff_decode hr).mp h
  obtain ⟨i', hd', hop'⟩ := (selects_iff_decode hr').mp h'
  obtain rfl : i = i' := Except.ok.inj (hd.symm.trans hd')
  exact row_eq_of_opcode_eq r hr r' hr' (hop.symm.trans hop')

theorem exists_row_of_decode {w : CommandWord} {i : Instr} (h : decode w = .ok i) :
    ∃ r ∈ opcodeTable, fieldOp r.pattern = i.opcode ∧ r.selects w = true :=
  encode_of_decode h ▸ exists_row_selects_encode i

theorem not_selects_of_error {w : CommandWord} {e : DecodeError} (h : decode w = .error e) {r : OpcodeRow}
    (hr : r ∈ opcodeTable) : r.selects w = false := by
  rw [← Bool.not_eq_true, selects_iff_decode hr]
  simp [h]

theorem wellFormedWord_iff_decode {w : CommandWord} : wellFormedWord w = true ↔ ∃ i, decode w = .ok i := by
  rw [wellFormedWord, List.any_eq_true]
  constructor
  · rintro ⟨r, hr, h⟩
    obtain ⟨i, hd, -⟩ := (selects_iff_decode hr).mp h
    exact ⟨i, hd⟩
  · rintro ⟨i, hd⟩
    obtain ⟨r, hr, -, h⟩ := exists_row_of_decode hd
    exact ⟨r, hr, h⟩

/-- Settles O3: all three parts follow from `selects_iff_decode`, since a word decodes to at most one command. -/
theorem decoderAgreesWithOpcodeTable : Obligations.DecoderAgreesWithOpcodeTable := by
  unfold Obligations.DecoderAgreesWithOpcodeTable
  refine fun w => ⟨wellFormedWord_iff_decode.symm, fun r hr r' hr' => row_eq_of_selects hr hr', ?_⟩
  intro i hd r hr hsel
  obtain ⟨i', hd', hop⟩ := (selects_iff_decode hr).mp hsel
  obtain rfl : i = i' := Except.ok.inj (hd.symm.trans hd')
  exact hop.symm

/-! ### The decoder is total (R64) -/

namespace Machine

/-- Settles O5: the word either decodes, and then selects the row of its command, or does not, and then selects none. -/
theorem everyWordSelectsARowOrRaisesIllegal : Obligations.EveryWordSelectsARowOrRaisesIllegal := by
  unfold Obligations.EveryWordSelectsARowOrRaisesIllegal
  intro s w rest hp hs
  cases hd : decode w with
  | ok i =>
    obtain ⟨r, hr, -, hsel⟩ := exists_row_of_decode hd
    exact .inl ⟨r, hr, i, hsel, fun r' hr' h => row_eq_of_selects hr' hr h hsel, rfl,
      stepRunsDecodedCommand s w rest i hp hd⟩
  | error e =>
    have hs' : State.Ready { s with pending := rest, index := s.index + 1 } := hs
    refine .inr ⟨fun r hr => not_selects_of_error hd hr, ?_⟩
    rw [step_of_command hp, runCommand_of_error hd, illegalCommand, commandChecks_of_ready hs',
      raiseFault_eq_afterFault, fieldOp]

end Machine

end Sys2Proof
end

section
/-! SUPPORT. The glyph codes a command carries (spec/40_glyph_rom.md R80 to R83, spec/41_segment_writer.md R93), and
the completion of a writing command whose transactions are all acknowledged. -/

namespace Sys2Proof.Machine

/-! ### Completion of a writing command (spec/10_state.md R31, spec/60_exceptions.md R141) -/

/-- `respond(OK)` after the writes of a command adds its response to them and nothing else. -/
theorem completedOk_respond {s t : State} {ws : List (Nat × Byte)} (hw : Wrote s t ws) (hun : Untouched s t)
    (hst : t.status = s.status) (hre : t.responses = s.responses) : CompletedOk s (t.respond .ok 0) ws := by
  have hresp : (t.respond .ok 0).responses = s.responses ++ [responseWord .ok 0 s.status] := by
    rw [State.respond_responses, hre, hst]
  exact ⟨hw, hun.trans (respond_untouched t .ok 0), hst, hresp⟩

/-- An accepted command that writes completes with exactly its writes when the controller acknowledges each of them. -/
theorem exec_completes {i : Instr} {s : State} (hw : commandWrites i s ≠ []) (hs : s.Ready) (hb : s.BufSized)
    (ha : accepted i s) (hacks : s.AcksOk (commandWrites i s).length) :
    ∃ t, exec i s = .next t ∧ CompletedOk s t (commandWrites i s) := by
  have hin : ∀ w ∈ commandWrites i s, w.1 < s.buf.length := fun w hmem => hb ▸ commandWrites_lt ha w hmem
  obtain ⟨t, hrun, hwrote, hun, hst, hre⟩ := writeAll_ok hacks (commandWrites_nodup i s) hin
  refine ⟨t.respond .ok 0, ?_, completedOk_respond hwrote hun hst hre⟩
  rw [exec_of_writes hw hs ha, hrun, finish_ok]

/-! ### Glyph, LOOKUP and SETDIG -/

/-- Settles O14: the two branches of `Glyph`, in the ROM's range and outside it. -/
theorem glyphCoercesEveryCodeOutsideRange : Obligations.GlyphCoercesEveryCodeOutsideRange := by
  unfold Obligations.GlyphCoercesEveryCodeOutsideRange
  refine fun s => ⟨fun k => ?inRange, fun c hc => ?outside⟩
  case inRange => exact s.glyph_of_mem (by omega)
  case outside => exact s.glyph_of_not_mem (by omega)

/-- Settles O15: LOOKUP passes the common checks attached or not (R81), and its answer is the glyph of its operand. -/
theorem lookupReturnsTheFixedTableValue : Obligations.LookupReturnsTheFixedTableValue := by
  unfold Obligations.LookupReturnsTheFixedTableValue
  intro s c hf
  rw [exec, execLookup, Instr.opcode, commandChecks_of_lookup hf, s.glyph_codeOperand, State.respond]

/-- Settles O18: SETDIG's one write is the glyph of its code operand. -/
theorem setdigWritesOneGlyph : Obligations.SetdigWritesOneGlyph := by
  unfold Obligations.SetdigWritesOneGlyph
  intro s a c hs hb ha hacks
  have hwrites : commandWrites (.setdig a c) s =
      [(a.toNat, if h : c.toNat ≤ 15 then s.rom[c.toNat] else s.rom[11])] := by
    rw [← s.glyph_codeOperand, commandWrites, codeOperand]
  rw [← hwrites]
  exact exec_completes (by simp [hwrites]) hs hb ha hacks

end Sys2Proof.Machine
end

section
/-! SUPPORT. The segment pattern writer (spec/41_segment_writer.md R90 to R95): READ, the one-address writes and CLRALL,
and how a transport failure stops a writing command (spec/60_exceptions.md R143). -/

namespace Sys2Proof.Machine

/-! ### The Digit Buffer by address (R22) -/

theorem State.width_pos (s : State) : 0 < s.width := by
  unfold State.width
  cases s.par.width <;> decide

theorem State.bufAt_eq_getElem (s : State) {a : Nat} (h : a < s.buf.length) : s.bufAt a = s.buf[a] := by
  simp [State.bufAt, h]

/-- A buffer of WIDTH entries that reads 0 at every address is the zero buffer. -/
theorem State.BufSized.buf_eq_zero {s : State} (hb : s.BufSized) (h : ∀ a, a < s.width → s.bufAt a = 0) :
    s.buf = List.replicate s.width 0 := by
  refine List.ext_getElem (by simpa using hb) fun a ha _ => ?_
  rw [← s.bufAt_eq_getElem ha, h a (hb ▸ ha), List.getElem_replicate]

/-! ### A writing command that a transport failure stops (R143) -/

/-- An accepted command whose write `k` is the first the controller answers `fail` makes the writes up to it, and the
raise that ends the sequence is latched and answered. -/
theorem exec_stops {i : Instr} {s : State} {k : Nat} (hk : k < (commandWrites i s).length) (hs : s.Ready)
    (hb : s.BufSized) (ha : accepted i s) (hfail : s.FailsAfter k) :
    ∃ t, exec i s = .next t ∧ StoppedAt s t (commandWrites i s) k ((commandWrites i s)[k]).1 := by
  have hw : commandWrites i s ≠ [] := List.ne_nil_of_length_pos (Nat.zero_lt_of_lt hk)
  have hin : ∀ w ∈ commandWrites i s, w.1 < s.buf.length := fun w hmem => hb ▸ commandWrites_lt ha w hmem
  obtain ⟨r, hrun, hcause, hinfo, hlog, hbuf, hctrl, hframe, hlen, hun, hst, hre⟩ :=
    writeAll_fail hk hfail (commandWrites_nodup i s) hin
  refine ⟨r.state.raiseFault r.cause r.info, ?runs, hlog, hbuf, hctrl, hframe, hlen,
    hun.trans (raiseFault_untouched _ _ _), ?status, ?response⟩
  case runs => rw [exec_of_writes hw hs ha, hrun, finish_error]
  case status => rw [raiseFault_eq_afterFault, hcause, hinfo, afterFault, hst]
  case response => rw [raiseFault_eq_afterFault, hcause, hinfo, afterFault, hst, hre]

/-- Settles O35: the writes of an accepted command stop at the first transaction answered `fail`. -/
theorem transportFailureIsImpreciseWithinItsCommand : Obligations.TransportFailureIsImpreciseWithinItsCommand := by
  unfold Obligations.TransportFailureIsImpreciseWithinItsCommand
  exact fun _ _ _ hk hs hb ha hfail => exec_stops hk hs hb ha hfail

/-! ### READ, WPAT, CLRA and CLRALL -/

/-- Settles O16: READ passes its checks and answers the buffer's entry. -/
theorem readReturnsTheShadowPattern : Obligations.ReadReturnsTheShadowPattern := by
  unfold Obligations.ReadReturnsTheShadowPattern
  intro s a h hs hb
  have ha : a.toNat < s.width := hb ▸ h
  rw [exec, execRead, commandChecks_of_ready hs, withAddr_of_lt ha, s.bufAt_eq_getElem h, State.respond]

/-- Settles O17: WPAT's one write is its pattern. -/
theorem wpatWritesOnePattern : Obligations.WpatWritesOnePattern := by
  unfold Obligations.WpatWritesOnePattern
  intro s a p hs hb ha hacks
  exact exec_completes (i := .wpat a p) (List.cons_ne_nil _ _) hs hb ha hacks

/-- Settles O19: CLRA's one write is pattern 0. -/
theorem clraWritesZero : Obligations.ClraWritesZero := by
  unfold Obligations.ClraWritesZero
  intro s a hs hb ha hacks
  exact exec_completes (i := .clra a) (List.cons_ne_nil _ _) hs hb ha hacks

/-- Settles O20: CLRALL completes with its zero writes, which reach every entry of the buffer. -/
theorem clrallClearsEveryAddressAscending : Obligations.ClrallClearsEveryAddressAscending := by
  unfold Obligations.ClrallClearsEveryAddressAscending
  intro s hs hb hacks
  have hlen : (commandWrites .clrall s).length = s.width := by simp [commandWrites]
  have hw : commandWrites .clrall s ≠ [] := List.ne_nil_of_length_pos (hlen ▸ s.width_pos)
  obtain ⟨t, hrun, hdone⟩ := exec_completes hw hs hb trivial (hlen ▸ hacks)
  have ⟨⟨_, hwritten, _, hbuf⟩, hun, _⟩ := hdone
  have hwidth : t.width = s.width := hun.width
  have hsized : t.BufSized := hbuf.trans (hb.trans hwidth.symm)
  have hzero : ∀ a, a < t.width → t.bufAt a = 0 := fun a ha =>
    (hwritten (a, 0) (List.mem_map_of_mem (List.mem_range.mpr (hwidth ▸ ha)))).1
  exact ⟨t, hrun, hdone, hwidth ▸ hsized.buf_eq_zero hzero⟩

end Sys2Proof.Machine
end

section
/-! SUPPORT. The digit decomposition (spec/42_digit_decomposer.md R110, R112, R114, R116): the walk says the value
written in base ten with truncated digits, so its codes give the value back, and what is claimed of `digits6` and
`digits4` is what the walk does with five steps and with three. -/

namespace Sys2Proof.Machine

/-! ### The walk -/

theorem tdiv_tdiv_natCast (u : Int) (b c : Nat) : (u.tdiv b).tdiv c = u.tdiv (b * c : Nat) := by
  obtain ⟨m, rfl | rfl⟩ := u.eq_nat_or_neg
  · simp only [← Int.ofNat_tdiv, Nat.div_div_eq_div_mul]
  · simp only [Int.neg_tdiv, ← Int.ofNat_tdiv, Nat.div_div_eq_div_mul]

/-- The codes by place: in front the unmasked quotient, then the truncated digit of each lower place (R112, R114). -/
theorem digitWalk_eq_places (n : Nat) (u : Int) :
    digitWalk n u = u.tdiv (10 ^ n) :: (List.range n).reverse.map fun j => (u.tdiv (10 ^ j)).tmod 10 := by
  induction n generalizing u with
  | zero => simp [digitWalk]
  | succ n ih =>
    have hplace (j : Nat) : (u.tdiv 10).tdiv (10 ^ j) = u.tdiv (10 ^ (j + 1)) := by
      simpa [pow_succ'] using tdiv_tdiv_natCast u 10 (10 ^ j)
    simp [digitWalk, ih, hplace, List.range_succ_eq_map, Function.comp_def]

/-- The value a list of codes stands for, most significant first (R112: `sum_k c[k] * 10^(5-k)`). -/
def reassemble (codes : List Int) : Int := codes.foldl (fun acc c => acc * 10 + c) 0

theorem reassemble_digitWalk (n : Nat) (u : Int) : reassemble (digitWalk n u) = u := by
  induction n generalizing u with
  | zero => simp [reassemble, digitWalk]
  | succ n ih =>
    have hfront : (digitWalk n (u.tdiv 10)).foldl (fun acc c => acc * 10 + c) 0 = u.tdiv 10 := ih _
    rw [reassemble, digitWalk, List.foldl_append, hfront]
    exact Int.tdiv_mul_add_tmod u 10

/-- No two values have the same codes: the codes give the value back. -/
theorem digitWalk_injective (n : Nat) : Function.Injective (digitWalk n) :=
  Function.LeftInverse.injective (reassemble_digitWalk n)

/-- The codes of a value that fits are its decimal digits. -/
theorem digitWalk_natCast {n m : Nat} (h : m < 10 ^ (n + 1)) :
    digitWalk n (m : Int) = (List.range (n + 1)).reverse.map fun j => ((m / 10 ^ j % 10 : Nat) : Int) := by
  have hfront : m / 10 ^ n % 10 = m / 10 ^ n :=
    Nat.mod_eq_of_lt (Nat.div_lt_of_lt_mul (by rwa [← pow_succ]))
  have hplace (j : Nat) : (m : Int).tdiv (10 ^ j) = ((m / 10 ^ j : Nat) : Int) := by
    rw [Int.tdiv_eq_ediv_of_nonneg (Int.natCast_nonneg m)]
    push_cast
    rfl
  have hmod (k : Nat) : (k : Int).tmod 10 = ((k % 10 : Nat) : Int) := rfl
  simp only [digitWalk_eq_places, List.range_succ, List.reverse_append, List.reverse_singleton, List.singleton_append,
    List.map_cons, hplace, hmod, hfront]

/-- Every code of a value that fits is a decimal digit. -/
theorem digitWalk_mem_digit {n : Nat} {u : Int} (h0 : 0 ≤ u) (h : u < 10 ^ (n + 1)) :
    ∀ c ∈ digitWalk n u, 0 ≤ c ∧ c ≤ 9 := by
  obtain ⟨m, rfl⟩ := Int.eq_ofNat_of_zero_le h0
  rw [digitWalk_natCast (by exact_mod_cast h)]
  intro c hc
  obtain ⟨j, -, rfl⟩ := List.mem_map.mp hc
  omega

/-- A masked code of a value that is not positive (R116). -/
theorem tmod_ten_of_nonpos {u : Int} (h : u ≤ 0) : -9 ≤ u.tmod 10 ∧ u.tmod 10 ≤ 0 := by
  have hneg : (-u).tmod 10 = -u.tmod 10 := Int.neg_tmod u 10
  have hnonneg : 0 ≤ (-u).tmod 10 := Int.tmod_nonneg 10 (by omega)
  have hlt : (-u).tmod 10 < 10 := Int.tmod_lt_of_pos (-u) (by decide)
  omega

/-- A quotient of a value that is not positive (R116). -/
theorem tdiv_nonpos {u : Int} (h : u ≤ 0) (b : Nat) : u.tdiv b ≤ 0 := by
  have hneg : (-u).tdiv b = -u.tdiv b := Int.neg_tdiv u b
  have hnonneg : 0 ≤ (-u).tdiv b := Int.tdiv_nonneg (by omega) (Int.natCast_nonneg b)
  omega

/-! ### Saturation (R110) -/

theorem sat_of_le {v m : Int} (h : v ≤ m) : sat v m = v := if_neg (by omega)

theorem sat_of_ge {v m : Int} (h : m ≤ v) : sat v m = m := by
  unfold sat
  split <;> omega

/-! ### The six codes and the four -/

theorem digits6_eq_digitWalk {v : Int} (h : v ≠ 0) : digits6 v = digitWalk 5 (sat v Config.sat6) := if_neg h

theorem digitWalk_five (u : Int) :
    digitWalk 5 u = [u.tdiv 100000, (u.tdiv 10000).tmod 10, (u.tdiv 1000).tmod 10, (u.tdiv 100).tmod 10,
      (u.tdiv 10).tmod 10, u.tmod 10] := by
  simp [digitWalk_eq_places, List.range_succ]

theorem digitWalk_three (u : Int) :
    digitWalk 3 u = [u.tdiv 1000, (u.tdiv 100).tmod 10, (u.tdiv 10).tmod 10, u.tmod 10] := by
  simp [digitWalk_eq_places, List.range_succ]

theorem reassemble_six (c0 c1 c2 c3 c4 c5 : Int) :
    reassemble [c0, c1, c2, c3, c4, c5] = c0 * 100000 + c1 * 10000 + c2 * 1000 + c3 * 100 + c4 * 10 + c5 := by
  simp only [reassemble, List.foldl_cons, List.foldl_nil]
  ring

theorem reassemble_four (c1 c2 c3 c4 : Int) :
    reassemble [c1, c2, c3, c4] = c1 * 1000 + c2 * 100 + c3 * 10 + c4 := by
  simp only [reassemble, List.foldl_cons, List.foldl_nil]
  ring

theorem digits6_of_ge {v : Int} (h : 999999 ≤ v) : digits6 v = [9, 9, 9, 9, 9, 9] := by
  rw [digits6_eq_digitWalk (by omega), Config.sat6, sat_of_ge h]
  decide

theorem digits4_of_ge {v : Int} (h : 9999 ≤ v) : digits4 v = [9, 9, 9, 9] := by
  rw [digits4, Config.sat4, sat_of_ge h]
  decide

/-- Settles O26: "data" for 0, and otherwise the walk of five steps over the saturated value. -/
theorem digits6DecomposesEveryValue : Obligations.Digits6DecomposesEveryValue := by
  unfold Obligations.Digits6DecomposesEveryValue
  refine ⟨rfl, fun v u hv hu => ?_, fun v hv => digits6_of_ge hv.le⟩
  have hwalk : digits6 v = digitWalk 5 u := by
    rw [digits6_eq_digitWalk hv, hu]
    rfl
  refine ⟨_, _, _, _, _, _, hwalk.trans (digitWalk_five u), rfl, rfl, rfl, rfl, rfl, rfl, ?value, fun h1 => ?digits⟩
  case value => rw [← reassemble_six, ← digitWalk_five, reassemble_digitWalk]
  case digits =>
    rw [← digitWalk_five]
    exact digitWalk_mem_digit (by omega) (by omega)

/-- Settles O27: the walk of three steps over the saturated value. -/
theorem digits4DecomposesEveryValue : Obligations.Digits4DecomposesEveryValue := by
  unfold Obligations.Digits4DecomposesEveryValue
  refine ⟨fun v u hu => ?_, fun v hv => digits4_of_ge hv.le⟩
  have hwalk : digits4 v = digitWalk 3 u := by
    rw [hu]
    rfl
  refine ⟨_, _, _, _, hwalk.trans (digitWalk_three u), rfl, rfl, rfl, rfl, ?value, fun h0 => ?digits⟩
  case value => rw [← reassemble_four, ← digitWalk_three, reassemble_digitWalk]
  case digits =>
    rw [← digitWalk_three]
    exact digitWalk_mem_digit (by omega) (by omega)

/-- A code that is not positive: 0 has its own glyph and every negative code is coerced (R80, R116). -/
theorem State.glyph_of_nonpos (s : State) {c : Int} (h : c ≤ 0) :
    s.glyph c = if c = 0 then s.rom[0] else s.rom[11] := by
  split
  case isTrue hc =>
    subst hc
    exact s.glyph_of_mem (by decide)
  case isFalse hc => exact s.glyph_of_not_mem (by omega)

/-- Settles O28: a negative value is not saturated, so its codes are its own truncated quotients and remainders. -/
theorem negativeValuesShowBlanksAndZeros : Obligations.NegativeValuesShowBlanksAndZeros := by
  unfold Obligations.NegativeValuesShowBlanksAndZeros
  refine ⟨fun v hv => ?six, fun v hv => ?four, fun s c hc => s.glyph_of_nonpos hc, by decide, by decide⟩
  case six =>
    have hwalk : digits6 v = digitWalk 5 v := by
      rw [digits6_eq_digitWalk hv.ne, sat_of_le (hv.le.trans (by decide))]
    refine ⟨_, _, _, _, _, _, hwalk.trans (digitWalk_five v), tdiv_nonpos hv.le 100000, ?masked, ?value⟩
    case masked =>
      simp only [List.forall_mem_cons, List.not_mem_nil, IsEmpty.forall_iff, implies_true, and_true]
      have hmask (b : Nat) := tmod_ten_of_nonpos (tdiv_nonpos hv.le b)
      exact ⟨hmask 10000, hmask 1000, hmask 100, hmask 10, tmod_ten_of_nonpos hv.le⟩
    case value => rw [← reassemble_six, ← digitWalk_five, reassemble_digitWalk]
  case four =>
    have hwalk : digits4 v = digitWalk 3 v := by rw [digits4, sat_of_le (hv.le.trans (by decide))]
    refine ⟨_, _, _, _, hwalk.trans (digitWalk_three v), tdiv_nonpos hv.le 1000, ?masked, ?value⟩
    case masked =>
      simp only [List.forall_mem_cons, List.not_mem_nil, IsEmpty.forall_iff, implies_true, and_true]
      have hmask (b : Nat) := tmod_ten_of_nonpos (tdiv_nonpos hv.le b)
      exact ⟨hmask 100, hmask 10, tmod_ten_of_nonpos hv.le⟩
    case value => rw [← reassemble_four, ← digitWalk_three, reassemble_digitWalk]

end Sys2Proof.Machine
end

section
/-! SUPPORT. The renderers REND6 and REND4 (spec/42_digit_decomposer.md R111, R113, R115, R117): their writes in terms
of their codes, what the display then says of the value, saturated values, and the narrow display. -/

namespace Sys2Proof.Machine

/-! ### The writes of the renderers -/

theorem commandWrites_rend6 (s : State) {v : Word32} {c0 c1 c2 c3 c4 c5 : Int}
    (h : digits6 v.toInt = [c0, c1, c2, c3, c4, c5]) :
    commandWrites (.rend6 v) s =
      if v = 0 then
        [(0, s.glyph c0), (1, s.glyph c1), (2, s.glyph c2), (3, s.glyph c3), (4, s.glyph c4), (5, s.glyph c5)]
      else
        [(5, s.glyph c5), (4, s.glyph c4), (3, s.glyph c3), (2, s.glyph c2), (1, s.glyph c1), (0, s.glyph c0)] := by
  rw [commandWrites, h]
  split <;> rfl

theorem commandWrites_rend4 (s : State) {v : Word32} {c1 c2 c3 c4 : Int} (h : digits4 v.toInt = [c1, c2, c3, c4]) :
    commandWrites (.rend4 v) s = [(4, s.glyph c4), (3, s.glyph c3), (2, s.glyph c2), (1, s.glyph c1)] := by
  rw [commandWrites, h]
  rfl

/-- REND6 makes six writes, whichever its order. -/
theorem commandWrites_rend6_length (s : State) (v : Word32) : (commandWrites (.rend6 v) s).length = 6 := by
  rw [commandWrites, List.length_map]
  split <;> rfl

/-- Whichever its order, REND6 writes every position the glyph of its code. -/
theorem mem_commandWrites_rend6 (s : State) (v : Word32) {k : Nat} (hk : k < 6) :
    (k, s.glyph ((digits6 v.toInt).getD k 0)) ∈ commandWrites (.rend6 v) s := by
  rw [commandWrites]
  refine List.mem_map_of_mem (f := fun k => (k, s.glyph ((digits6 v.toInt).getD k 0))) ?_
  split <;> simp <;> omega

/-- On six positions and with every transaction acknowledged, REND6 completes with its writes. -/
theorem exec_rend6_completes {s : State} (v : Word32) (hs : s.Ready) (hb : s.BufSized) (hsix : s.par.width = .six)
    (hacks : s.AcksOk 6) :
    ∃ t, exec (.rend6 v) s = .next t ∧ CompletedOk s t (commandWrites (.rend6 v) s) := by
  have hlen := commandWrites_rend6_length s v
  exact exec_completes (List.ne_nil_of_length_pos (by omega)) hs hb (accepted_rend6_of_six hsix v) (hlen ▸ hacks)

/-- Settles O23: REND6 completes with its writes, which are the glyphs of its six codes. -/
theorem rend6WritesSixGlyphsInOrder : Obligations.Rend6WritesSixGlyphsInOrder := by
  unfold Obligations.Rend6WritesSixGlyphsInOrder
  intro s v hs hb hsix hacks
  obtain ⟨t, hrun, hdone⟩ := exec_rend6_completes v hs hb hsix hacks
  match hcodes : digits6 v.toInt, digits6_length v.toInt with
  | [c0, c1, c2, c3, c4, c5], _ =>
    exact ⟨t, c0, c1, c2, c3, c4, c5, rfl, hrun, commandWrites_rend6 s hcodes ▸ hdone⟩

/-- Settles O24: REND4 completes with its writes, which are the glyphs of its four codes. -/
theorem rend4WritesFourMiddleGlyphs : Obligations.Rend4WritesFourMiddleGlyphs := by
  unfold Obligations.Rend4WritesFourMiddleGlyphs
  intro s v hs hb hsix hacks
  obtain ⟨t, hrun, hdone⟩ :=
    exec_completes (i := .rend4 v) (List.cons_ne_nil _ _) hs hb (accepted_rend4_of_six hsix v) hacks
  match hcodes : digits4 v.toInt, digits4_length v.toInt with
  | [c1, c2, c3, c4], _ => exact ⟨t, c1, c2, c3, c4, rfl, hrun, commandWrites_rend4 s hcodes ▸ hdone⟩

/-! ### Reading the value back (R117 (a)) -/

/-- A value the display can show: its field read as signed is its field, and it has six decimal places. -/
theorem toInt_eq_toNat_of_shown {v : Word32} (h1 : 1 ≤ v.toInt) (h6 : v.toInt ≤ 999999) :
    v.toInt = v.toNat ∧ v.toNat < 10 ^ 6 := by
  have hfield := BitVec.toInt_eq_toNat_cond v
  have hlt := v.isLt
  split at hfield <;> omega

theorem digits6_of_shown {v : Word32} (h1 : 1 ≤ v.toInt) (h6 : v.toInt ≤ 999999) :
    digits6 v.toInt = digitWalk 5 v.toNat := by
  rw [digits6_eq_digitWalk (by omega), Config.sat6, sat_of_le h6, (toInt_eq_toNat_of_shown h1 h6).1]

/-- The code of position `k` is the decimal digit of its place. -/
theorem digits6_getD_of_shown {v : Word32} (h1 : 1 ≤ v.toInt) (h6 : v.toInt ≤ 999999) {k : Nat} (hk : k < 6) :
    (digits6 v.toInt).getD k 0 = ((v.toNat / 10 ^ (5 - k) % 10 : Nat) : Int) := by
  rw [digits6_of_shown h1 h6, digitWalk_natCast (toInt_eq_toNat_of_shown h1 h6).2]
  simp [hk]

/-- REND6 of a value in 1..999999 leaves at each position the glyph of the decimal digit of its place. -/
theorem exec_rend6_shows_digits {s : State} {v : Word32} (hs : s.Ready) (hb : s.BufSized)
    (hsix : s.par.width = .six) (hacks : s.AcksOk 6) (h1 : 1 ≤ v.toInt) (h6 : v.toInt ≤ 999999) :
    ∃ t, exec (.rend6 v) s = .next t ∧
      ∀ k, k < 6 → ∃ d : Fin 16, (d : Nat) = v.toNat / 10 ^ (5 - k) % 10 ∧ t.bufAt k = s.rom[d] := by
  obtain ⟨t, hrun, ⟨_, hwritten, _⟩, _⟩ := exec_rend6_completes v hs hb hsix hacks
  refine ⟨t, hrun, fun k hk => ⟨⟨v.toNat / 10 ^ (5 - k) % 10, by omega⟩, rfl, ?_⟩⟩
  have hshown : t.bufAt k = s.glyph ((digits6 v.toInt).getD k 0) := (hwritten _ (mem_commandWrites_rend6 s v hk)).1
  rw [hshown, digits6_getD_of_shown h1 h6 hk]
  exact s.glyph_of_mem (by omega)

/-- Two values below 10^6 whose decimal digits agree place by place have the same codes, so they are the same. -/
theorem eq_of_decimal_digits_eq {m m' : Nat} (hm : m < 10 ^ 6) (hm' : m' < 10 ^ 6)
    (h : ∀ k, k < 6 → m / 10 ^ (5 - k) % 10 = m' / 10 ^ (5 - k) % 10) : m = m' := by
  have hcodes : digitWalk 5 m = digitWalk 5 m' := by
    rw [digitWalk_natCast hm, digitWalk_natCast hm']
    refine List.map_congr_left fun j hj => ?_
    have hj : j < 6 := List.mem_range.mp (List.mem_reverse.mp hj)
    have hplace := h (5 - j) (by omega)
    rw [Nat.sub_sub_self (by omega)] at hplace
    rw [hplace]
  exact Int.ofNat_inj.mp (digitWalk_injective 5 hcodes)

/-- Settles O29: the patterns are the glyphs of the decimal digits, which a ROM with distinct digit glyphs gives back,
and the digits give back the value. -/
theorem radioReadbackDeterminesTheValue : Obligations.RadioReadbackDeterminesTheValue := by
  unfold Obligations.RadioReadbackDeterminesTheValue
  refine ⟨fun s v hs hb hsix hacks h1 h6 => exec_rend6_shows_digits hs hb hsix hacks h1 h6, ?_⟩
  intro s t t' v v' hs hb hsix hacks h1 h6 h1' h6' hdistinct hrun hrun' hbuf
  obtain ⟨_, hshow, hdigit⟩ := exec_rend6_shows_digits hs hb hsix hacks h1 h6
  obtain ⟨_, hshow', hdigit'⟩ := exec_rend6_shows_digits hs hb hsix hacks h1' h6'
  obtain rfl := Host.Outcome.next.inj (hrun.symm.trans hshow)
  obtain rfl := Host.Outcome.next.inj (hrun'.symm.trans hshow')
  refine BitVec.eq_of_toNat_eq (eq_of_decimal_digits_eq (toInt_eq_toNat_of_shown h1 h6).2
    (toInt_eq_toNat_of_shown h1' h6').2 fun k hk => ?_)
  obtain ⟨d, hd, hpat⟩ := hdigit k hk
  obtain ⟨d', hd', hpat'⟩ := hdigit' k hk
  have hsame : s.rom[d] = s.rom[d'] := by rw [← hpat, ← hpat', State.bufAt, State.bufAt, hbuf]
  rw [← hd, ← hd', hdistinct d d' (by omega) (by omega) hsame]

/-! ### Saturated values (R110, R117 (b), (c)) -/

/-- REND6 depends on its value through its writes alone. -/
theorem exec_rend6_congr {v v' : Word32} (h : rend6Writes (valueOperand v) = rend6Writes (valueOperand v'))
    (s : State) : exec (.rend6 v) s = exec (.rend6 v') s := by
  rw [exec, exec, execRend6, execRend6, h]
  rfl

/-- REND4 depends on its value through its codes alone. -/
theorem exec_rend4_congr {v v' : Word32} (h : digits4 (valueOperand v) = digits4 (valueOperand v')) (s : State) :
    exec (.rend4 v) s = exec (.rend4 v') s := by
  rw [exec, exec, execRend4, execRend4, rend4Writes, rend4Writes, h]
  rfl

theorem rend6Writes_of_ge {v : Int} (h : 999999 ≤ v) :
    rend6Writes v = (positionsFrom 0 [9, 9, 9, 9, 9, 9]).reverse := by
  rw [rend6Writes, if_neg (by omega), digits6_of_ge h]

/-- Settles O30: a value at the bound or past it has the writes of the bound, whose codes are all 9. -/
theorem saturatedRendersAreIdentical : Obligations.SaturatedRendersAreIdentical := by
  unfold Obligations.SaturatedRendersAreIdentical
  refine ⟨fun s v hv => exec_rend6_congr ?six s, fun s v hv => exec_rend4_congr ?four s⟩
  case six => exact (rend6Writes_of_ge hv).trans (rend6Writes_of_ge (by decide)).symm
  case four => exact (digits4_of_ge hv).trans (digits4_of_ge (by decide)).symm

/-! ### The narrow display (R113, R115, R140) -/

/-- On a display narrower than the renderer needs, the body `body` never runs, whichever command (`op`) it belongs
to. -/
theorem commandChecks_withPositions_of_lt {s : State} {n : Nat} (hs : s.Ready) (hn : s.width < n) (op : Byte)
    (body : State → State) :
    commandChecks op (withPositions n body) s = afterFault s .addr (BitVec.ofNat 8 (n - 1)) := by
  rw [commandChecks_of_ready hs, withPositions_of_lt hn, raiseFault_eq_afterFault]

/-- Settles O34: four positions are fewer than the six and the five the renderers need. -/
theorem renderersFaultOnTheNarrowDisplay : Obligations.RenderersFaultOnTheNarrowDisplay := by
  unfold Obligations.RenderersFaultOnTheNarrowDisplay
  intro s v hs hfour
  have hwidth : s.width = 4 := by rw [State.width, hfour, Width.positions]
  refine ⟨?rend6, ?rend4⟩
  case rend6 => exact congrArg Host.Outcome.next (commandChecks_withPositions_of_lt hs (by omega) _ _)
  case rend4 => exact congrArg Host.Outcome.next (commandChecks_withPositions_of_lt hs (by omega) _ _)

end Sys2Proof.Machine
end

section
/-! SUPPORT. The indicator bit editor (spec/43_indicator_editor.md R130 to R133): the bit edit as a function of bits,
SETBIT and SETIND, their bit index check, and a dot turned on and off again. -/

namespace Sys2Proof.Machine

/-! ### The bit edit (R130) -/

/-- R130's formula with its mask `1 << b` as the library's one-bit word. -/
theorem setBitFn_eq (p : Byte) (b : Nat) (e : Bool) :
    setBitFn p b e = (p &&& ~~~BitVec.twoPow 8 b) ||| (if e then BitVec.twoPow 8 b else 0) := by
  rw [setBitFn, BitVec.twoPow_eq]
  cases e
  case false => simp
  case true => rfl

theorem getLsbD_setBitFn (p : Byte) {b i : Nat} (hi : i < 8) (e : Bool) :
    (setBitFn p b e).getLsbD i = if i = b then e else p.getLsbD i := by
  rw [setBitFn_eq]
  by_cases hib : i = b
  case pos => cases e <;> simp [← hib, hi]
  case neg => cases e <;> simp [hib, hi]

theorem setBitFn_true (p : Byte) (b : Nat) : setBitFn p b true = p ||| BitVec.twoPow 8 b := by
  refine BitVec.eq_of_getLsbD_eq fun i hi => ?_
  rw [getLsbD_setBitFn p hi]
  split
  next hib => simp [← hib, hi]
  next hib => simp [Ne.symm hib]

theorem setBitFn_false (p : Byte) (b : Nat) : setBitFn p b false = p &&& ~~~BitVec.twoPow 8 b := by
  simp [setBitFn_eq]

/-- Of two edits of one bit the later decides. -/
theorem setBitFn_setBitFn (p : Byte) (b : Nat) (e e' : Bool) :
    setBitFn (setBitFn p b e) b e' = setBitFn p b e' := by
  refine BitVec.eq_of_getLsbD_eq fun i hi => ?_
  rw [getLsbD_setBitFn _ hi, getLsbD_setBitFn _ hi, getLsbD_setBitFn _ hi]
  split <;> rfl

theorem setBitFn_eq_self_iff (p : Byte) {b : Nat} (hb : b < 8) (e : Bool) :
    setBitFn p b e = p ↔ p.getLsbD b = e := by
  constructor
  case mp =>
    intro h
    rw [← h, getLsbD_setBitFn p hb, if_pos rfl]
  case mpr =>
    intro h
    refine BitVec.eq_of_getLsbD_eq fun i hi => ?_
    rw [getLsbD_setBitFn p hi]
    split
    next hib => rw [hib, h]
    next => rfl

/-- Settles O25: the one-bit word is the power of two, and each bit of the edit is known. -/
theorem setBitFnEditsExactlyOneBit : Obligations.SetBitFnEditsExactlyOneBit := by
  unfold Obligations.SetBitFnEditsExactlyOneBit
  intro p b e _
  have hmask : BitVec.ofNat 8 (2 ^ b) = BitVec.twoPow 8 b := BitVec.eq_of_toNat_eq (by simp)
  exact ⟨hmask ▸ setBitFn_eq p b e, fun i hi => getLsbD_setBitFn p hi e⟩

/-! ### SETBIT and SETIND (R131, R132) -/

/-- Settles O33: the address check passes and the bit index check, which comes before the edit, does not. -/
theorem bitIndexPastSevenRaisesBitIdx : Obligations.BitIndexPastSevenRaisesBitIdx := by
  unfold Obligations.BitIndexPastSevenRaisesBitIdx
  intro s a b e hs ha hb
  rw [exec, execSetbit, commandChecks_of_ready hs, withAddr_of_lt ha, withBitIndex_of_le hb,
    raiseFault_eq_afterFault]

theorem exec_setbit_completes {s : State} {a b : Byte} (e : Bool) (hs : s.Ready) (hb : s.BufSized)
    (ha : a.toNat < s.width) (hb8 : b.toNat < 8) (hacks : s.AcksOk 1) :
    ∃ t, exec (.setbit a b e) s = .next t ∧
      CompletedOk s t [(a.toNat, setBitFn (s.bufAt a.toNat) b.toNat e)] :=
  exec_completes (i := .setbit a b e) (List.cons_ne_nil _ _) hs hb ⟨ha, hb8⟩ hacks

/-- Settles O21: SETBIT's one write is the edited pattern. -/
theorem setbitEditsOneBit : Obligations.SetbitEditsOneBit := by
  unfold Obligations.SetbitEditsOneBit
  intro s a b e hs hb ha hb8 hacks
  obtain ⟨t, hrun, hdone⟩ := exec_setbit_completes e hs hb ha hb8 hacks
  exact ⟨t, _, hrun, hdone, fun i hi => getLsbD_setBitFn _ hi e⟩

/-- Settles O22: SETIND completes with its writes, which are every pattern with its bit 4 edited. -/
theorem setindEditsEveryDotAscending : Obligations.SetindEditsEveryDotAscending := by
  unfold Obligations.SetindEditsEveryDotAscending
  intro s e hs hb hacks
  have hlen : (commandWrites (.setind e) s).length = s.width := by simp [commandWrites]
  have hw : commandWrites (.setind e) s ≠ [] := List.ne_nil_of_length_pos (hlen ▸ s.width_pos)
  obtain ⟨t, hrun, hdone⟩ := exec_completes hw hs hb trivial (hlen ▸ hacks)
  exact ⟨t, fun a => setBitFn (s.bufAt a) 4 e, hrun, hdone, fun a _ i hi => getLsbD_setBitFn _ hi e⟩

/-! ### A dot turned on and then off (R133 (b)) -/

theorem CompletedOk.ready {s t : State} {ws : List (Nat × Byte)} (h : CompletedOk s t ws) (hs : s.Ready) :
    t.Ready := by
  obtain ⟨_, _, hst, _⟩ := h
  rwa [State.Ready, hst]

theorem CompletedOk.width {s t : State} {ws : List (Nat × Byte)} (h : CompletedOk s t ws) : t.width = s.width := by
  obtain ⟨_, hun, _⟩ := h
  exact hun.width

theorem CompletedOk.bufSized {s t : State} {ws : List (Nat × Byte)} (h : CompletedOk s t ws) (hb : s.BufSized) :
    t.BufSized := by
  have ⟨⟨_, _, _, hlen⟩, _⟩ := h
  exact hlen.trans (hb.trans h.width.symm)

/-- The acknowledgements left for the commands after a completed one. -/
theorem CompletedOk.acksOk {s t : State} {ws : List (Nat × Byte)} {n : Nat} (h : CompletedOk s t ws)
    (hacks : s.AcksOk (ws.length + n)) : t.AcksOk n := by
  obtain ⟨⟨hlog, _⟩, ⟨_, _, hfails, _⟩, _⟩ := h
  exact hacks.drop (by simp [hlog]) hfails

theorem CompletedOk.bufAt_of_single {s t : State} {a : Nat} {p : Byte} (h : CompletedOk s t [(a, p)]) :
    t.bufAt a = p := by
  obtain ⟨⟨_, hwritten, _⟩, _⟩ := h
  exact (hwritten (a, p) (List.mem_singleton_self _)).1

theorem CompletedOk.txlog_of_single {s t : State} {a : Nat} {p : Byte} (h : CompletedOk s t [(a, p)]) :
    t.txlog = s.txlog ++ [.wr a p] := by
  obtain ⟨⟨hlog, _⟩, _⟩ := h
  exact hlog

/-- Setting a bit and then clearing it leaves the pattern with the bit cleared, whatever the bit was: the second edit
reads what the first wrote, and decides. -/
theorem exec_setbit_on_off {s : State} {a b : Byte} (hs : s.Ready) (hb : s.BufSized) (ha : a.toNat < s.width)
    (hb8 : b.toNat < 8) (hacks : s.AcksOk 2) :
    ∃ t u, exec (.setbit a b true) s = .next t ∧ exec (.setbit a b false) t = .next u ∧
      u.bufAt a.toNat = setBitFn (s.bufAt a.toNat) b.toNat false ∧
      u.txlog = s.txlog ++ [.wr a.toNat (setBitFn (s.bufAt a.toNat) b.toNat true),
        .wr a.toNat (setBitFn (s.bufAt a.toNat) b.toNat false)] := by
  obtain ⟨t, hon, ht⟩ := exec_setbit_completes true hs hb ha hb8 (hacks.mono (by decide))
  obtain ⟨u, hoff, hu⟩ :=
    exec_setbit_completes false (ht.ready hs) (ht.bufSized hb) (ht.width ▸ ha) hb8 (ht.acksOk (n := 1) hacks)
  rw [ht.bufAt_of_single, setBitFn_setBitFn] at hu
  refine ⟨t, u, hon, hoff, hu.bufAt_of_single, ?_⟩
  rw [hu.txlog_of_single, ht.txlog_of_single, List.append_assoc, List.singleton_append]

/-- Settles O31: the dot ends cleared, which changes nothing exactly when it was clear; 0x10 is the word of bit 4 alone
and 0xEF its complement. -/
theorem dotToggleClearsTheDot : Obligations.DotToggleClearsTheDot := by
  unfold Obligations.DotToggleClearsTheDot
  intro s a hs hb ha hacks
  have hset (p : Byte) : setBitFn p 4 true = p ||| 0x10 := setBitFn_true p 4
  have hclear (p : Byte) : setBitFn p 4 false = p &&& 0xEF := setBitFn_false p 4
  obtain ⟨t, u, hon, hoff, hbuf, hlog⟩ := exec_setbit_on_off (b := 4) hs hb ha (by decide) hacks
  refine ⟨t, u, hon, hoff, hbuf.trans (hclear _), ?unchanged, ?log⟩
  case unchanged => exact hbuf ▸ setBitFn_eq_self_iff _ (by decide) false
  case log => rw [← hset, ← hclear]; exact hlog

end Sys2Proof.Machine
end

section
/-! SUPPORT. Fault entry and the refusing machine (spec/60_exceptions.md R142, R144, R145): no input stops the machine,
and while a fault is latched only a reset gets past it. -/

namespace Sys2Proof.Machine

/-! ### Every input answers (R142, R180) -/

/-- Every command answers with the state its common checks lead to. -/
theorem exec_answers_next (i : Instr) (s : State) : ∃ t, exec i s = .next t := by
  cases i <;> exact ⟨_, rfl⟩

theorem runCommand_answers_next (w : CommandWord) (s : State) : ∃ t, runCommand w s = .next t := by
  cases hd : decode w with
  | ok i => exact runCommand_of_decode hd s ▸ exec_answers_next i s
  | error e => exact ⟨_, runCommand_of_error hd s⟩

/-- Settles O10: a command word by `runCommand_answers_next`; the other inputs are total functions of the state. -/
theorem everyStepAnswersNext : Obligations.EveryStepAnswersNext := by
  unfold Obligations.EveryStepAnswersNext
  intro s
  match hp : s.pending with
  | [] => exact ⟨s, step_of_nothing hp⟩
  | .command w :: rest => exact step_of_command hp ▸ runCommand_answers_next w _
  | .reset :: rest => exact ⟨_, step_of_reset hp⟩
  | .detach :: rest => exact ⟨_, step_of_detach hp⟩

/-! ### The refusing machine (R144) -/

/-- Of the ways a command can end, all but the refusal ask that no fault be latched. -/
theorem exec_of_faulted {s : State} (hf : s.status.faulted = true) (i : Instr) :
    exec i s = .next (s.respond .refused 0) := by
  simpa [State.Ready, hf] using exec_cases i s

/-- The refusal does not depend on whether the word decodes. -/
theorem runCommand_of_faulted {s : State} (hf : s.status.faulted = true) (w : CommandWord) :
    runCommand w s = .next (s.respond .refused 0) := by
  cases hd : decode w with
  | ok i => rw [runCommand_of_decode hd, exec_of_faulted hf]
  | error e => rw [runCommand_of_error hd, illegalCommand, commandChecks_of_faulted hf]

/-- Settles O8: the word is taken, and the refusal puts out its response. -/
theorem faultedMachineRefusesEveryWord : Obligations.FaultedMachineRefusesEveryWord := by
  unfold Obligations.FaultedMachineRefusesEveryWord
  intro s w rest hp hf
  rw [step_of_command hp]
  exact runCommand_of_faulted (s := { s with pending := rest, index := s.index + 1 }) hf w

/-! ### Leaving the faulted state (R145, R174) -/

/-- A detach takes ACTIVE away from a faulted machine and leaves the fault; it issues no write, so no second fault can
replace the first (R174). -/
theorem detachInput_status_of_faulted {s : State} (hf : s.status.faulted = true) :
    (detachInput s).status = { s.status with active := false } := by
  cases ha : s.status.active with
  | false => rw [detachInput_of_inactive ha, ← ha]
  | true => rw [detachInput_of_no_clear ha (.inr hf)]; rfl

/-- Settles O9: a command is refused, a detach keeps the fault, and with nothing presented nothing happens. -/
theorem onlyResetLeavesTheFaultedState : Obligations.OnlyResetLeavesTheFaultedState := by
  unfold Obligations.OnlyResetLeavesTheFaultedState
  intro s t h hf hreset
  match hp : s.pending with
  | [] =>
    obtain rfl : s = t := Host.Outcome.next.inj ((step_of_nothing hp).symm.trans h)
    exact ⟨hf, rfl, rfl⟩
  | .command w :: rest =>
    obtain rfl := Host.Outcome.next.inj ((faultedMachineRefusesEveryWord s w rest hp hf).symm.trans h)
    exact ⟨hf, rfl, rfl⟩
  | .reset :: rest => exact absurd hp (hreset rest)
  | .detach :: rest =>
    obtain rfl := Host.Outcome.next.inj ((step_of_detach hp).symm.trans h)
    rw [detachInput_status_of_faulted (s := { s with pending := rest }) hf]
    exact ⟨hf, rfl, rfl⟩

end Sys2Proof.Machine
end

section
/-! SUPPORT. A reset that a transport failure ends, and detach in each of its four cases (spec/70_reset_and_hazards.md
R170, R172, R174). -/

namespace Sys2Proof.Machine

/-! ### The controller after a sequence of zero writes, gone through or stopped (R143) -/

theorem State.swept_range_read? (s : State) (n a : Nat) :
    Memory.read? (s.swept (List.range n)).ctrl a = if a < n then some 0 else Memory.read? s.ctrl a := by
  simp only [State.swept_ctrl, zeroed_read?, List.mem_range]

/-- Nothing is said of the address whose write failed: its byte is unspecified. -/
theorem State.sweptUntil_read? (s : State) {k a : Nat} (h : a ≠ k) :
    Memory.read? (s.sweptUntil k).ctrl a = if a < k then some 0 else Memory.read? s.ctrl a := by
  rw [State.sweptUntil, Memory.read?_write_of_ne h]
  exact s.swept_range_read? k a

/-! ### Reset stopped by a transport failure (R170, R172) -/

/-- Settles O38: the two ways a reset stops, read field by field. The presented reset changes neither the log nor the
acknowledgements, so the failing transaction of `s` is the one its reset meets. -/
theorem transportFailureEndsTheReset : Obligations.TransportFailureEndsTheReset := by
  unfold Obligations.TransportFailureEndsTheReset
  intro s rest k hp
  refine ⟨fun hk hfails => ?startup, fun hc hk hfails => ?clear⟩
  case startup =>
    have hreset := resetInput_of_startup_fails (s := { s with pending := rest }) hk hfails
    exact ⟨_, (step_of_reset hp).trans (congrArg _ hreset), rfl, rfl, rfl, rfl, rfl, rfl, rfl⟩
  case clear =>
    have hk' : k < s.resetClears.length := by rwa [s.resetClears_length, if_pos hc]
    have hreset := resetInput_of_clear_fails (s := { s with pending := rest }) hk' hfails
    exact ⟨_, (step_of_reset hp).trans (congrArg _ hreset), rfl, rfl, rfl,
      fun _ ha => State.sweptUntil_read? _ ha, rfl, rfl, rfl, rfl⟩

/-! ### Detach with clearing writes (R174) -/

/-- How a detach with clearing writes ends: as the last write leaves it, or with the raise that stopped it. -/
def detached : Except Raised State → State
  | .ok s => s
  | .error r => r.latched

theorem detachInput_eq_detached {s : State} (hs : s.Ready) (hc : s.par.detachClearWrites = true) :
    detachInput s = detached (clearController (s.setActive false).zeroBuf) := by
  obtain ⟨hf, ha⟩ := hs
  unfold detachInput
  rw [if_neg (by simp [ha])]
  refine (if_pos (by simp [hc, hf])).trans ?_
  cases clearController (s.setActive false).zeroBuf <;> rfl

/-- A detach whose zero writes are all acknowledged. -/
theorem detachInput_of_acks {s : State} (hs : s.Ready) (hc : s.par.detachClearWrites = true) (h : s.AcksOk s.width) :
    detachInput s = (s.setActive false).zeroBuf.swept (List.range s.width) := by
  rw [detachInput_eq_detached hs hc, clearController_of_acks (s := (s.setActive false).zeroBuf) h]
  rfl

/-- A detach whose zero write to address `k` is answered `fail`. -/
theorem detachInput_of_fails {s : State} {k : Nat} (hs : s.Ready) (hc : s.par.detachClearWrites = true)
    (hk : k < s.width) (h : s.FailsAfter k) :
    detachInput s = ((s.setActive false).zeroBuf.sweptUntil k).latchFault .transport (BitVec.ofNat 8 k) := by
  rw [detachInput_eq_detached hs hc, clearController_of_fails (s := (s.setActive false).zeroBuf) hk h]
  rfl

/-- Settles O39: one lemma about `detachInput` for each of the four cases, read field by field. -/
theorem detachZeroesTheBufferAndKeepsFaults : Obligations.DetachZeroesTheBufferAndKeepsFaults := by
  unfold Obligations.DetachZeroesTheBufferAndKeepsFaults
  intro s rest hp
  rw [step_of_detach hp]
  refine ⟨fun ha => ?inactive, fun ha h => ?quiet, fun hs hc hacks => ?acked, fun k hs hc hk hfails => ?stopped⟩
  case inactive => exact congrArg _ (detachInput_of_inactive (s := { s with pending := rest }) ha)
  case quiet => exact congrArg _ (detachInput_of_no_clear (s := { s with pending := rest }) ha h)
  case acked =>
    exact ⟨_, congrArg _ (detachInput_of_acks (s := { s with pending := rest }) hs hc hacks), rfl, rfl, rfl,
      fun a => State.swept_range_read? _ s.width a, rfl, rfl, rfl, rfl, rfl, rfl⟩
  case stopped =>
    exact ⟨_, congrArg _ (detachInput_of_fails (s := { s with pending := rest }) hs hc hk hfails), rfl, rfl, rfl,
      fun _ ha => State.sweptUntil_read? _ ha, rfl⟩

end Sys2Proof.Machine
end

section
/-! SUPPORT. The step with nothing presented (log 10). -/

namespace Sys2Proof.Machine

/-- Settles O11: `step_of_nothing` is the branch of `step` for an empty queue. -/
theorem nothingPresentedNothingHappens : Obligations.NothingPresentedNothingHappens := by
  unfold Obligations.NothingPresentedNothingHappens
  intro s hp
  exact step_of_nothing hp

end Sys2Proof.Machine
end
